-- ==== Sys2Proof/Word.lean ====
section
/-! DEFINITION. The word types of the core: bytes, 16-bit words and register indices (00_scope.md R7 to R11, R21, R22). -/

namespace Sys2Proof

/-- A register, memory cell or immediate of 8 bits (R7, R10). -/
abbrev Byte := BitVec 8

/-- I, PC, a stack entry or an opcode: 16 bits (R8, R21). -/
abbrev Word := BitVec 16

/-- A general register index: "Index always in [0,15]" (10_state.md R32). -/
abbrev Reg := Fin 16

/-- VF is V15, the flag register (10_state.md R33). -/
abbrev vf : Reg := 15

/-- One framebuffer row: 64 cells of one bit (10_state.md R48). -/
abbrev FrameRow := BitVec 64

/-- The framebuffer: 32 rows, 2048 cells in all (10_state.md R48, R50). -/
abbrev FrameBuffer := Vector FrameRow 32

end Sys2Proof
end

