-- ==== Sys2Proof/Config.lean ====
section
/-! DEFINITION. What an implementation fixes (00_scope.md R7 to R19) and the free values, which nothing fixes. -/

namespace Sys2Proof

/-- SPRITE_EDGE (00_scope.md R17): what a sprite bit beyond the grid does. -/
inductive SpriteEdge where
  | wrap
  | clip
deriving DecidableEq, Repr

/-- FLAG_ORDER (00_scope.md R18): the order of the flag and result writes of a flag instruction. -/
inductive FlagOrder where
  | sequential
  | flagThenResult
  | resultThenFlag
deriving DecidableEq, Repr

/-- KEY_INDEX_POLICY (00_scope.md R19): what Ex9E and ExA1 do when Vx > 0xF. -/
inductive KeyIndexPolicy where
  | fault
  | lowNibble
deriving DecidableEq, Repr

/-- The named parameters a running instance depends on. A claim fixes them or holds for all their values. -/
structure Params where
  spriteEdge : SpriteEdge
  flagOrder : FlagOrder
  keyIndexPolicy : KeyIndexPolicy
deriving DecidableEq, Repr

/-- What the environment supplies with one `Step` (00_scope.md R20, 10_state.md R51, 44_keys_timers.md R195): the key
snapshot K, the random byte R, and the draw that picks one of several held keys. -/
structure Sample where
  keys : BitVec 16
  random : Byte
  pick : Fin 16
deriving DecidableEq, Repr

/-- One turn of the scheduler (60_exceptions.md R221): so many Ticks, then one Step with its inputs. Every interleaving
of Steps and Ticks in which Steps keep coming is a sequence of turns. -/
structure Turn where
  ticks : Nat
  sample : Sample
deriving DecidableEq, Repr

namespace Config

/-- MEM_SIZE (00_scope.md R10). -/
abbrev memSize : Nat := 4096

/-- STACK_DEPTH (00_scope.md R9). -/
abbrev stackDepth : Nat := 16

/-- FB_W (00_scope.md R11). -/
abbrev fbWidth : Nat := 64

/-- FB_H (00_scope.md R11). -/
abbrev fbHeight : Nat := 32

/-- FONT_BASE (00_scope.md R12). -/
abbrev fontBase : Nat := 0

/-- ROM_BASE (00_scope.md R14), the reset vector (70_reset_and_hazards.md R243). -/
abbrev romBase : Nat := 0x200

/-- ROM_MAX (00_scope.md R14). -/
abbrev romMax : Nat := memSize - romBase

/-- TIMER_HZ (00_scope.md R15). -/
abbrev timerHz : Nat := 60

/-- STEPS_PER_TICK for a given INSTR_RATE (00_scope.md R16). INSTR_RATE itself is OPEN: no value stands here. DESIGN CHOICE
(log 24): for a rate that is no multiple of 60 the quotient is rounded down, and for one below 60 it is 0, which is no
legal STEPS_PER_TICK; the spec states neither. -/
def stepsPerTick (instrRate : Nat) : Nat := instrRate / timerHz

/-! The free values: what the environment does at the Step number `clock` where no turn is listed for it. They have no
body, so a claim about a run holds whatever they are (log 2). -/

/-- How many Ticks the scheduler issues before that Step (60_exceptions.md R221: any interleaving). -/
opaque freeTicks : Nat → Nat

/-- The key snapshot K of that Step (10_state.md R51: any value). -/
opaque freeKeys : Nat → BitVec 16

/-- The random byte R of that Step (00_scope.md R20: a free draw). -/
opaque freeRandom : Nat → Byte

/-- The draw among several held keys of that Step (44_keys_timers.md R195: any held key). -/
opaque freePick : Nat → Fin 16

/-- The free turn at Step number `clock`. -/
def freeTurn (clock : Nat) : Turn :=
  { ticks := freeTicks clock
    sample := { keys := freeKeys clock, random := freeRandom clock, pick := freePick clock } }

end Config
end Sys2Proof
end

