-- ==== Sys2Proof/Syntax.lean ====
section
/-! DEFINITION. The instruction set: one constructor per row of spec/opcode_table.json (30_encoding.md R85). Operand ranges
are carried by the types (30_encoding.md R84), so every term is an instruction some word encodes. -/

namespace Sys2Proof

/-- The 34 instructions. Operands stand in the order of the encoding's fields X, Y, then KK, NNN or N. -/
inductive Instr where
  /-- 00E0: CLS (40_display.md R100). -/
  | cls
  /-- 00EE: RET (41_control_flow.md R121). -/
  | ret
  /-- 1nnn: JP nnn (R122). -/
  | jp (nnn : BitVec 12)
  /-- 2nnn: CALL nnn (R123). -/
  | call (nnn : BitVec 12)
  /-- 3xkk: SE Vx, kk (R124). -/
  | seByte (x : Reg) (kk : Byte)
  /-- 4xkk: SNE Vx, kk (R125). -/
  | sneByte (x : Reg) (kk : Byte)
  /-- 5xy0: SE Vx, Vy (R126). -/
  | seReg (x y : Reg)
  /-- 6xkk: LD Vx, kk (42_alu.md R141). -/
  | ldByte (x : Reg) (kk : Byte)
  /-- 7xkk: ADD Vx, kk (R142). -/
  | addByte (x : Reg) (kk : Byte)
  /-- 8xy0: LD Vx, Vy (R143). -/
  | ldReg (x y : Reg)
  /-- 8xy1: OR Vx, Vy (R144). -/
  | orReg (x y : Reg)
  /-- 8xy2: AND Vx, Vy (R145). -/
  | andReg (x y : Reg)
  /-- 8xy3: XOR Vx, Vy (R146). -/
  | xorReg (x y : Reg)
  /-- 8xy4: ADD Vx, Vy (R147). -/
  | addReg (x y : Reg)
  /-- 8xy5: SUB Vx, Vy (R148). -/
  | subReg (x y : Reg)
  /-- 8xy6: SHR Vx, Vy (R149). -/
  | shrReg (x y : Reg)
  /-- 8xy7: SUBN Vx, Vy (R150). -/
  | subnReg (x y : Reg)
  /-- 8xyE: SHL Vx, Vy (R151). -/
  | shlReg (x y : Reg)
  /-- 9xy0: SNE Vx, Vy (41_control_flow.md R127). -/
  | sneReg (x y : Reg)
  /-- Annn: LD I, nnn (43_index_memory.md R170). -/
  | ldIndex (nnn : BitVec 12)
  /-- Bnnn: JP V0, nnn (41_control_flow.md R128). -/
  | jpV0 (nnn : BitVec 12)
  /-- Cxkk: RND Vx, kk (42_alu.md R152). -/
  | rnd (x : Reg) (kk : Byte)
  /-- Dxyn: DRW Vx, Vy, n (40_display.md R101). -/
  | drw (x y : Reg) (n : BitVec 4)
  /-- Ex9E: SKP Vx (44_keys_timers.md R191). -/
  | skp (x : Reg)
  /-- ExA1: SKNP Vx (R192). -/
  | sknp (x : Reg)
  /-- Fx07: LD Vx, DT (R193). -/
  | ldFromDelay (x : Reg)
  /-- Fx0A: LD Vx, K (R194). -/
  | ldKey (x : Reg)
  /-- Fx15: LD DT, Vx (R196). -/
  | ldDelay (x : Reg)
  /-- Fx18: LD ST, Vx (R197). -/
  | ldSound (x : Reg)
  /-- Fx1E: ADD I, Vx (43_index_memory.md R171). -/
  | addIndex (x : Reg)
  /-- Fx29: LD F, Vx (R172). -/
  | ldFont (x : Reg)
  /-- Fx33: LD B, Vx (R173). -/
  | ldBcd (x : Reg)
  /-- Fx55: LD [I], Vx (R174). -/
  | storeRegs (x : Reg)
  /-- Fx65: LD Vx, [I] (R175). -/
  | loadRegs (x : Reg)
deriving DecidableEq, Repr

end Sys2Proof
end

