-- ==== Sys2Proof/WellFormed.lean ====
section
/-! DEFINITION. What a well-formed input of the core is: a word that matches a row of the opcode table (30_encoding.md R85,
R87) and a ROM that fits (70_reset_and_hazards.md R241). An instruction TERM needs no check of its own: the types of its
operands admit exactly the values its fields encode (30_encoding.md R84). -/

namespace Sys2Proof

/-- One row of the opcode table: a word `w` is the row's when `w &&& mask = pattern`. -/
structure Row where
  mask : Word
  pattern : Word
deriving DecidableEq, Repr

/-- The control-flow and display rows with an address, a byte or no operand (30_encoding.md R85). -/
def rowsControl : List Row :=
  [⟨0xFFFF, 0x00E0⟩, ⟨0xFFFF, 0x00EE⟩, ⟨0xF000, 0x1000⟩, ⟨0xF000, 0x2000⟩] ++
  [⟨0xF000, 0x3000⟩, ⟨0xF000, 0x4000⟩, ⟨0xF00F, 0x5000⟩, ⟨0xF00F, 0x9000⟩] ++
  [⟨0xF000, 0xB000⟩, ⟨0xF000, 0xD000⟩]

/-- The register and ALU rows (30_encoding.md R85). -/
def rowsAlu : List Row :=
  [⟨0xF000, 0x6000⟩, ⟨0xF000, 0x7000⟩, ⟨0xF00F, 0x8000⟩, ⟨0xF00F, 0x8001⟩] ++
  [⟨0xF00F, 0x8002⟩, ⟨0xF00F, 0x8003⟩, ⟨0xF00F, 0x8004⟩, ⟨0xF00F, 0x8005⟩] ++
  [⟨0xF00F, 0x8006⟩, ⟨0xF00F, 0x8007⟩, ⟨0xF00F, 0x800E⟩, ⟨0xF000, 0xC000⟩]

/-- The I, key and timer rows (30_encoding.md R85). -/
def rowsF : List Row :=
  [⟨0xF000, 0xA000⟩, ⟨0xF0FF, 0xE09E⟩, ⟨0xF0FF, 0xE0A1⟩, ⟨0xF0FF, 0xF007⟩] ++
  [⟨0xF0FF, 0xF00A⟩, ⟨0xF0FF, 0xF015⟩, ⟨0xF0FF, 0xF018⟩, ⟨0xF0FF, 0xF01E⟩] ++
  [⟨0xF0FF, 0xF029⟩, ⟨0xF0FF, 0xF033⟩, ⟨0xF0FF, 0xF055⟩, ⟨0xF0FF, 0xF065⟩]

/-- The 34 rows of the opcode table. -/
def opcodeTable : List Row := rowsControl ++ rowsAlu ++ rowsF

def Row.accepts (r : Row) (w : Word) : Bool := w &&& r.mask == r.pattern

/-- A word is an instruction exactly when a row accepts it; "a word that matches none is UnknownOpcode" (R85). -/
def wordWellFormed (w : Word) : Bool := opcodeTable.any (fun r => r.accepts w)

/-- The ROM size check (R241): 0 to 3584 bytes load. -/
def romWellFormed (rom : List Byte) : Bool := rom.length ≤ Config.romMax

end Sys2Proof
end

