-- ==== Sys2Proof/Decode.lean ====
section
/-! DEFINITION. The decoder, total on any bytes, and the encoder (30_encoding.md R80 to R90). -/

namespace Sys2Proof

/-! ## Byte order and fields -/

/-- The byte at the lower address is the high byte: the fetch is big-endian (20_memory.md R62, 30_encoding.md R80). -/
def joinBytes (hi lo : Byte) : Word := hi ++ lo

/-- The byte of a word stored at the lower address (20_memory.md R62). -/
def hiByte (w : Word) : Byte := w.extractLsb' 8 8

/-- The byte of a word stored at the higher address (20_memory.md R62). -/
def loByte (w : Word) : Byte := w.extractLsb' 0 8

/-- `op[15:12]`, the family nibble (30_encoding.md R82). -/
def fieldFamily (w : Word) : BitVec 4 := w.extractLsb' 12 4

/-- `op[11:8]` as a number (R82). -/
def fieldXBits (w : Word) : BitVec 4 := w.extractLsb' 8 4

/-- `op[7:4]` as a number (R82). -/
def fieldYBits (w : Word) : BitVec 4 := w.extractLsb' 4 4

/-- N = `op[3:0]` (00_scope.md R24). -/
def fieldN (w : Word) : BitVec 4 := w.extractLsb' 0 4

/-- KK = `op[7:0]` (R24). -/
def fieldKK (w : Word) : Byte := w.extractLsb' 0 8

/-- NNN = `op[11:0]` (R24). -/
def fieldNNN (w : Word) : BitVec 12 := w.extractLsb' 0 12

/-- The register a 4-bit field names (10_state.md R32). -/
def regOf (b : BitVec 4) : Reg := ⟨b.toNat, b.isLt⟩

/-- The 4-bit field that names a register. -/
def regBits (x : Reg) : BitVec 4 := BitVec.ofNat 4 x.val

/-- X (R24). -/
def fieldX (w : Word) : Reg := regOf (fieldXBits w)

/-- Y (R24). -/
def fieldY (w : Word) : Reg := regOf (fieldYBits w)

/-! ## The decoder -/

/-- The 8 family, selected by N (R85). -/
def decode8 (x y : Reg) (n : Nat) : Option Instr :=
  match n with
  | 0x0 => some (.ldReg x y)
  | 0x1 => some (.orReg x y)
  | 0x2 => some (.andReg x y)
  | 0x3 => some (.xorReg x y)
  | 0x4 => some (.addReg x y)
  | 0x5 => some (.subReg x y)
  | 0x6 => some (.shrReg x y)
  | 0x7 => some (.subnReg x y)
  | 0xE => some (.shlReg x y)
  | _ => none

/-- The E family, selected by KK (R85; 90_conflicts.md C3). -/
def decodeE (x : Reg) (kk : Nat) : Option Instr :=
  match kk with
  | 0x9E => some (.skp x)
  | 0xA1 => some (.sknp x)
  | _ => none

/-- The F family, selected by KK (R85; 90_conflicts.md C3). -/
def decodeF (x : Reg) (kk : Nat) : Option Instr :=
  match kk with
  | 0x07 => some (.ldFromDelay x)
  | 0x0A => some (.ldKey x)
  | 0x15 => some (.ldDelay x)
  | 0x18 => some (.ldSound x)
  | 0x1E => some (.addIndex x)
  | 0x29 => some (.ldFont x)
  | 0x33 => some (.ldBcd x)
  | 0x55 => some (.storeRegs x)
  | 0x65 => some (.loadRegs x)
  | _ => none

/-- The 0 family: the two whole-word forms, every other word is UnknownOpcode (R85, R88). -/
def decode0 (nnn : Nat) : Option Instr :=
  match nnn with
  | 0x0E0 => some .cls
  | 0x0EE => some .ret
  | _ => none

/-- Dispatch on the family nibble and then on more bits (R85). `none` is UnknownOpcode (R87). -/
def decodeWord (w : Word) : Option Instr :=
  match (fieldFamily w).toNat with
  | 0x0 => decode0 (fieldNNN w).toNat
  | 0x1 => some (.jp (fieldNNN w))
  | 0x2 => some (.call (fieldNNN w))
  | 0x3 => some (.seByte (fieldX w) (fieldKK w))
  | 0x4 => some (.sneByte (fieldX w) (fieldKK w))
  | 0x5 => if fieldN w = 0 then some (.seReg (fieldX w) (fieldY w)) else none
  | 0x6 => some (.ldByte (fieldX w) (fieldKK w))
  | 0x7 => some (.addByte (fieldX w) (fieldKK w))
  | 0x8 => decode8 (fieldX w) (fieldY w) (fieldN w).toNat
  | 0x9 => if fieldN w = 0 then some (.sneReg (fieldX w) (fieldY w)) else none
  | 0xA => some (.ldIndex (fieldNNN w))
  | 0xB => some (.jpV0 (fieldNNN w))
  | 0xC => some (.rnd (fieldX w) (fieldKK w))
  | 0xD => some (.drw (fieldX w) (fieldY w) (fieldN w))
  | 0xE => decodeE (fieldX w) (fieldKK w).toNat
  | _ => decodeF (fieldX w) (fieldKK w).toNat

/-- Why bytes are not an instruction. -/
inductive DecodeError where
  /-- Fewer than the two bytes of an instruction (R81). -/
  | truncated
  /-- The word matches no row (R87). -/
  | unknownOpcode (opcode : Word)
deriving DecidableEq, Repr

/-- The first instruction of a list of bytes, and the bytes after it. Every instruction is two bytes (R81). -/
def decodeBytes : List Byte → Except DecodeError (Instr × List Byte)
  | hi :: lo :: rest =>
    match decodeWord (joinBytes hi lo) with
    | some i => .ok (i, rest)
    | none => .error (.unknownOpcode (joinBytes hi lo))
  | _ => .error .truncated

/-- The instruction the decoder reads from a row's word of `nbits` bits: its bytes are laid out high byte first. -/
def decodeTableWord (nbits w : Nat) : Option Instr :=
  let op : Word := BitVec.ofNat 16 (w % 2 ^ nbits)
  match decodeBytes [hiByte op, loByte op] with
  | .ok (i, _) => some i
  | .error _ => none

/-! ## The encoder -/

/-- Format NNN (30_encoding.md R83). -/
def packNNN (family : BitVec 4) (nnn : BitVec 12) : Word := family ++ nnn

/-- Formats XKK and XF (R83). -/
def packXKK (family : BitVec 4) (x : Reg) (kk : Byte) : Word := packNNN family (regBits x ++ kk)

/-- Formats XYS and XYN (R83). -/
def packXYN (family : BitVec 4) (x y : Reg) (n : BitVec 4) : Word := packXKK family x (regBits y ++ n)

/-- The word of an instruction: "placing its operands in the fields of its format" (R90), with the fixed bits of R85. -/
def encode : Instr → Word
  | .cls => 0x00E0
  | .ret => 0x00EE
  | .jp nnn => packNNN 0x1 nnn
  | .call nnn => packNNN 0x2 nnn
  | .seByte x kk => packXKK 0x3 x kk
  | .sneByte x kk => packXKK 0x4 x kk
  | .seReg x y => packXYN 0x5 x y 0x0
  | .ldByte x kk => packXKK 0x6 x kk
  | .addByte x kk => packXKK 0x7 x kk
  | .ldReg x y => packXYN 0x8 x y 0x0
  | .orReg x y => packXYN 0x8 x y 0x1
  | .andReg x y => packXYN 0x8 x y 0x2
  | .xorReg x y => packXYN 0x8 x y 0x3
  | .addReg x y => packXYN 0x8 x y 0x4
  | .subReg x y => packXYN 0x8 x y 0x5
  | .shrReg x y => packXYN 0x8 x y 0x6
  | .subnReg x y => packXYN 0x8 x y 0x7
  | .shlReg x y => packXYN 0x8 x y 0xE
  | .sneReg x y => packXYN 0x9 x y 0x0
  | .ldIndex nnn => packNNN 0xA nnn
  | .jpV0 nnn => packNNN 0xB nnn
  | .rnd x kk => packXKK 0xC x kk
  | .drw x y n => packXYN 0xD x y n
  | .skp x => packXKK 0xE x 0x9E
  | .sknp x => packXKK 0xE x 0xA1
  | .ldFromDelay x => packXKK 0xF x 0x07
  | .ldKey x => packXKK 0xF x 0x0A
  | .ldDelay x => packXKK 0xF x 0x15
  | .ldSound x => packXKK 0xF x 0x18
  | .addIndex x => packXKK 0xF x 0x1E
  | .ldFont x => packXKK 0xF x 0x29
  | .ldBcd x => packXKK 0xF x 0x33
  | .storeRegs x => packXKK 0xF x 0x55
  | .loadRegs x => packXKK 0xF x 0x65

/-- The two bytes of an instruction as they stand in memory, high byte first (20_memory.md R62). -/
def encodeBytes (i : Instr) : List Byte := [hiByte (encode i), loByte (encode i)]

end Sys2Proof
end

