-- ==== Sys2Proof/Machine/Defaults.lean ====
section
/-! DEFINITION. The default values the spec gives its named parameters (00_scope.md R13, R17 to R19). -/

namespace Sys2Proof

/-- The defaults the spec gives (R17, R18, R19). -/
def Params.default : Params :=
  { spriteEdge := .wrap, flagOrder := .sequential, keyIndexPolicy := .fault }

namespace Machine

/-- The default FONT, glyphs 0 to 7 (70_reset_and_hazards.md R242). PRESUMED: the spec takes the bytes from general
knowledge (93_implementation_defined.md G1); log 5. -/
def fontLow : List Byte :=
  [0xF0, 0x90, 0x90, 0x90, 0xF0] ++ [0x20, 0x60, 0x20, 0x20, 0x70] ++
  [0xF0, 0x10, 0xF0, 0x80, 0xF0] ++ [0xF0, 0x10, 0xF0, 0x10, 0xF0] ++
  [0x90, 0x90, 0xF0, 0x10, 0x10] ++ [0xF0, 0x80, 0xF0, 0x10, 0xF0] ++
  [0xF0, 0x80, 0xF0, 0x90, 0xF0] ++ [0xF0, 0x10, 0x20, 0x40, 0x40]

/-- The default FONT, glyphs 8 to F (R242). -/
def fontHigh : List Byte :=
  [0xF0, 0x90, 0xF0, 0x90, 0xF0] ++ [0xF0, 0x90, 0xF0, 0x10, 0xF0] ++
  [0xF0, 0x90, 0xF0, 0x90, 0x90] ++ [0xE0, 0x90, 0xE0, 0x90, 0xE0] ++
  [0xF0, 0x80, 0x80, 0x80, 0xF0] ++ [0xE0, 0x90, 0x90, 0x90, 0xE0] ++
  [0xF0, 0x80, 0xF0, 0x80, 0xF0] ++ [0xF0, 0x80, 0xF0, 0x80, 0x80]

/-- FONT's default, 80 bytes (00_scope.md R13). -/
def font : List Byte := fontLow ++ fontHigh

end Machine
end Sys2Proof
end

