-- ==== Sys2Proof/Machine/State.lean ====
section
/-! DEFINITION. The state of the core as plain data (10_state.md R30), the ways the model stops, and the state after
reset (70_reset_and_hazards.md R240). -/

namespace Sys2Proof.Machine

/-- Memory: the cells whose byte differs from the reset contents, addresses strictly rising (10_state.md R47). What an
unlisted address reads as is `Memory.blank` in Machine/Ops.lean. -/
abbrev Memory := List Host.Cell

/-- The run-time fault causes (60_exceptions.md R210). -/
inductive Cause where
  /-- Code 1: fetch, Dxyn, Fx33, Fx55, Fx65. -/
  | outOfBounds
  /-- Code 2: decode. -/
  | unknownOpcode
  /-- Code 3: 2nnn. -/
  | stackOverflow
  /-- Code 4: 00EE. -/
  | stackUnderflow
  /-- Code 6: Ex9E, ExA1. -/
  | invalidKeyIndex
deriving DecidableEq, Repr

/-- The fault record `(cause, pc, opcode, addr)` (60_exceptions.md R213). -/
structure FaultRecord where
  cause : Cause
  pc : Word
  opcode : Option Word
  addr : Option Word
deriving DecidableEq, Repr

/-- The ways the MODEL stops. The run-time faults of the core are not among them: a Step that faults takes a next state
with the record set, as 60_exceptions.md R214 and R215 describe (log 7). -/
inductive Fault where
  /-- Cause code 5 (60_exceptions.md R210), raised by `load` only: the ROM is unreadable (`none`) or of a length above
  3584, and no instance exists (70_reset_and_hazards.md R241). Safe: nothing runs after it. -/
  | romLoadFailure (length : Option Nat)
deriving DecidableEq, Repr

/-- Why the model has no meaning for an instruction. -/
inductive Refusal where
  /-- Raised by `exec` for an instruction that has no meaning yet. No arm raises it now. Safe: the machine stops. -/
  | notModelled (mnemonic : String)
deriving DecidableEq, Repr

/-- The state vector: "exactly the following tuple" of 10_state.md R30, the eleven elements and nothing else. R31's opcode,
inputs, `fb_changed`, program text and parameters are not in it. -/
structure StateVector where
  /-- V0..VF (R32). -/
  v : Vector Byte 16
  /-- I (R36). -/
  index : Word
  /-- PC (R37). -/
  pc : Word
  /-- SP, the number of return addresses on the stack (R40). -/
  sp : Byte
  /-- The call stack (R41). -/
  stack : Vector Word 16
  /-- DT (R42). -/
  dt : Byte
  /-- ST (R43). -/
  st : Byte
  /-- The 4096 bytes of memory (R47). -/
  mem : Memory
  /-- The framebuffer (R48): cell (cx, cy) is bit cx of row cy (log 20). -/
  fb : FrameBuffer
  /-- The register a key wait will write, if the core is waiting (R45). -/
  wait : Option Reg
  /-- The first fault raised, if the core is halted (R46). -/
  fault : Option FaultRecord
deriving DecidableEq, Repr

/-- What a step is a function of: the state vector, and beside it the model's own fields, which stand for the inputs, the
output and the parameters that R31 keeps out of the vector (log 1, 4, 6, 29). -/
structure State extends StateVector where
  /-- MODEL'S OWN: the `fb_changed` output of the last Step (R52; log 6). -/
  fbChanged : Bool
  /-- MODEL'S OWN: the parameters of this instance; no event writes them (00_scope.md R17 to R19; log 4). -/
  params : Params
  /-- MODEL'S OWN: K, R and the key draw of the Step being executed (R51; log 1). -/
  now : Sample
  /-- MODEL'S OWN: the turns the environment has already decided, oldest first (log 1). -/
  inputs : List Turn
  /-- MODEL'S OWN: how many Steps were issued; it numbers the free turns (log 2). -/
  clock : Nat
deriving DecidableEq, Repr

/-- The state right after the load of the empty ROM (70_reset_and_hazards.md R240, R245; log 8): all fields zero or NONE,
PC 0x200, memory with nothing listed. The model's own fields have the values of log 6 and log 26. -/
def State.reset : State :=
  { v := Vector.replicate 16 0
    index := 0
    pc := 0x200
    sp := 0
    stack := Vector.replicate 16 0
    dt := 0
    st := 0
    mem := []
    fb := Vector.replicate 32 0
    wait := none
    fault := none
    fbChanged := false
    params := Params.default
    now := { keys := 0, random := 0, pick := 0 }
    inputs := []
    clock := 0 }

end Sys2Proof.Machine
end

