-- ==== Sys2Proof/Machine/Ops.lean ====
section
/-! DEFINITION. The named operations every instruction is written over: registers, memory, the stack, the framebuffer,
taking a fault, the events Load and Tick, the start of a Step, and the key wait. -/

namespace Sys2Proof.Machine

/-! ## Memory (20_memory.md) -/

/-- What an unlisted address reads as: the contents after Load of the default FONT and no ROM (20_memory.md R66). Above
0xFFF there is no memory; the value there is never read, since every access is range checked first (R63; log 9). -/
def Memory.blank (a : Nat) : Byte := font.getD a 0

/-- The canonical form: addresses strictly rising, all in the address space, no cell equal to what an unlisted address
reads as. Equal memories are then equal lists. -/
abbrev Memory.wf (m : Memory) : Prop :=
  m.Pairwise (fun c d => c.1 < d.1) ∧ ∀ c ∈ m, c.1 < Config.memSize ∧ c.2 ≠ Memory.blank c.1

/-- `MemRead(a, 1)` (00_scope.md R23). -/
def Memory.read : Memory → Nat → Byte
  | [], a => Memory.blank a
  | (c, b) :: m, a => if c = a then b else Memory.read m a

/-- Put a byte in its place in the sorted list; a byte equal to the blank value is not listed. -/
def Memory.insert (a : Nat) (b : Byte) : Memory → Memory
  | [] => if b = Memory.blank a then [] else [(a, b)]
  | (c, d) :: m =>
    if a < c then (if b = Memory.blank a then (c, d) :: m else (a, b) :: (c, d) :: m)
    else if a = c then (if b = Memory.blank a then m else (a, b) :: m)
    else (c, d) :: Memory.insert a b m

/-- `MemWrite(a, 1, b)` (00_scope.md R23). No cell exists above 0xFFF, so nothing is written there (log 9). -/
def Memory.write (m : Memory) (a : Nat) (b : Byte) : Memory :=
  if a < Config.memSize then Memory.insert a b m else m

/-- Read `n` bytes in ascending order (20_memory.md R73). -/
def Memory.readBytes (m : Memory) (a : Nat) : Nat → List Byte
  | 0 => []
  | n + 1 => m.read a :: Memory.readBytes m (a + 1) n

/-- Write bytes in ascending order (R73). -/
def Memory.writeBytes (m : Memory) (a : Nat) : List Byte → Memory
  | [] => m
  | b :: bs => Memory.writeBytes (m.write a b) (a + 1) bs

/-- `MemRead(a, 2)`, big-endian (00_scope.md R23, 20_memory.md R62). -/
def Memory.readWord (m : Memory) (a : Nat) : Word := joinBytes (m.read a) (m.read (a + 1))

/-- `CheckRange(base, len)` (20_memory.md R63): the address an OutOfBounds fault reports, or `none` if the access is in
range. No address is masked. -/
def checkRange (base : Word) (len : Nat) : Option Word :=
  if 0 < len ∧ base.toNat + len - 1 > 0xFFF then some (BitVec.ofNat 16 (max base.toNat 0x1000)) else none

/-! ## Registers, one accessor and one update per element of 10_state.md R30 -/

/-- `x[r]` (00_scope.md R23). -/
def State.reg (s : State) (r : Reg) : Byte := s.v[r.val]

/-- `x[r] <- b`. No register is hardwired (10_state.md R32). -/
def State.setReg (s : State) (r : Reg) (b : Byte) : State := { s with v := s.v.set r.val b r.isLt }

/-- All of V0..VF at once, for Fx65. -/
def State.setRegs (s : State) (v : Vector Byte 16) : State := { s with v := v }

def State.setIndex (s : State) (a : Word) : State := { s with index := a }

def State.setPc (s : State) (a : Word) : State := { s with pc := a }

/-- `pc <- pc + n` (00_scope.md R25): 2 for an instruction, 4 for a skip. -/
def State.advance (s : State) (n : Nat) : State := s.setPc (s.pc + BitVec.ofNat 16 n)

def State.setDt (s : State) (b : Byte) : State := { s with dt := b }

def State.setSt (s : State) (b : Byte) : State := { s with st := b }

def State.setMem (s : State) (m : Memory) : State := { s with mem := m }

/-- Fx0A enters the wait, a poll that finds a key leaves it (10_state.md R45). -/
def State.setWait (s : State) (w : Option Reg) : State := { s with wait := w }

/-- A new framebuffer, with `fb_changed <- 1` (10_state.md R52: "even when no cell changed value"). -/
def State.setFb (s : State) (fb : FrameBuffer) : State := { s with fb := fb, fbChanged := true }

/-- `stack[j]` (00_scope.md R23). Only indices 0..15 exist; no reachable state asks for another (log 10). -/
def State.stackAt (s : State) (j : Nat) : Word := s.stack.toList.getD j 0

/-- `stack[sp] <- a; sp <- sp + 1` (41_control_flow.md R123). -/
def State.push (s : State) (a : Word) : State :=
  { s with stack := s.stack.setIfInBounds s.sp.toNat a, sp := s.sp + 1 }

/-- `sp <- sp - 1` (R121). The entry keeps its value (10_state.md R41). -/
def State.pop (s : State) : State := { s with sp := s.sp - 1 }

/-! ## Operations over several registers or cells -/

/-- `x[j] <- bytes[0]; x[j+1] <- bytes[1]; …`, ascending (43_index_memory.md R175). -/
def loadPrefix (v : Vector Byte 16) (j : Nat) : List Byte → Vector Byte 16
  | [] => v
  | b :: bs => loadPrefix (v.setIfInBounds j b) (j + 1) bs

/-- `x[0], …, x[n-1]` (43_index_memory.md R174). -/
def State.regsBelow (s : State) (n : Nat) : List Byte := s.v.toList.take n

/-! ## The framebuffer (10_state.md R48) -/

/-- Row cy; only rows 0..31 exist, and no operation asks for another. -/
def readRow (fb : FrameBuffer) (cy : Nat) : FrameRow := fb[cy]?.getD 0

/-- `fb[cx][cy]`: bit cx of row cy (log 20). -/
def readCell (fb : FrameBuffer) (cx cy : Nat) : Bool := (readRow fb cy).getLsbD cx

/-- `fb[cx][cy] <- fb[cx][cy] ^ 1`. -/
def flipCell (fb : FrameBuffer) (cx cy : Nat) : FrameBuffer :=
  fb.setIfInBounds cy (readRow fb cy ^^^ BitVec.twoPow 64 cx)

/-- Every cell 0 (40_display.md R100). -/
def clearedFb : FrameBuffer := Vector.replicate 32 0

/-! ## Taking a fault (60_exceptions.md R213, R214) -/

/-- The codes of the run-time causes (60_exceptions.md R210). Code 5 is `Fault.code`. -/
def Cause.code : Cause → Nat
  | .outOfBounds => 1
  | .unknownOpcode => 2
  | .stackOverflow => 3
  | .stackUnderflow => 4
  | .invalidKeyIndex => 6

/-- The code of the load-time cause (R210). -/
def Fault.code : Fault → Nat
  | .romLoadFailure _ => 5

/-- `raise <Fault>`: the Step writes the record and nothing else, the pc stays, `fb_changed` is 0 (R214). There is no
return from a fault (R219). -/
def raiseFault (cause : Cause) (opcode addr : Option Word) (s : State) : State :=
  { s with
    fault := some { cause := cause, pc := s.pc, opcode := opcode, addr := addr }
    fbChanged := false }

/-- An instruction that accesses `len` bytes at I: its range check, then its effect (20_memory.md R63: "It runs before
the instruction writes any state"). -/
def withRange (len : Nat) (i : Instr) (s : State) (effect : State → State) : State :=
  match checkRange s.index len with
  | some a => raiseFault .outOfBounds (some (encode i)) (some a) s
  | none => effect s

/-! ## The event Tick (60_exceptions.md R220) -/

/-- One timer after `n` Ticks: one down per Tick, never below 0. -/
def decay (n : Nat) (t : Byte) : Byte := if t = 0 then 0 else BitVec.ofNat 8 (t.toNat - n)

/-- `n` Ticks in a row. A halted core ignores them (R215). -/
def ticks (n : Nat) (s : State) : State :=
  { s with
    dt := if s.fault.isSome then s.dt else decay n s.dt
    st := if s.fault.isSome then s.st else decay n s.st }

/-- The event `Tick`. -/
def tick (s : State) : State :=
  if s.fault.isSome then s
  else
    (s.setDt (if s.dt.toNat > 0 then s.dt - 1 else s.dt)).setSt (if s.st.toNat > 0 then s.st - 1 else s.st)

/-! ## The start of a Step and the scheduler's turn (30_encoding.md R86, 60_exceptions.md R221) -/

/-- The inputs of a Step are sampled and `fb_changed <- 0` (R86). -/
def latch (inp : Sample) (s : State) : State := { s with now := inp, fbChanged := false }

/-- The environment's next turn: the oldest listed one, else the free one of this clock (log 1, 2). -/
def State.nextTurn (s : State) : Turn :=
  match s.inputs with
  | [] => Config.freeTurn s.clock
  | t :: _ => t

/-- The turn is taken from the list and counted. -/
def State.consumeTurn (s : State) : State := { s with inputs := s.inputs.tail, clock := s.clock + 1 }

/-- The scheduler's part of a turn: the Ticks due, then the Step's inputs are sampled. -/
def beginStep (s : State) : State :=
  latch s.nextTurn.sample (ticks s.nextTurn.ticks s).consumeTurn

/-- R222's reference schedule for `n` Steps: one Tick before each Step whose number is a positive multiple of
STEPS_PER_TICK. A Tick after the last Step stands in no turn (log 3). `sample k` is what the environment supplies with Step `k`. -/
def referenceSchedule (stepsPerTick n : Nat) (sample : Nat → Sample) : List Turn :=
  (List.range n).map (fun k =>
    { ticks := if 0 < k ∧ k % stepsPerTick = 0 then 1 else 0, sample := sample k })

/-! ## Fetch (30_encoding.md R80) -/

/-- The word at pc. -/
def fetchWord (s : State) : Word := s.mem.readWord s.pc.toNat

/-- The fetch's range check. -/
def fetchCheck (s : State) : Option Word := checkRange s.pc 2

/-- A fetch fault "records addr = max(pc, 0x1000) and no opcode" (R80). -/
def fetchFault (addr : Word) (s : State) : State := raiseFault .outOfBounds none (some addr) s

/-- An illegal word: "the offending opcode and PC are reported" (60_exceptions.md R211). -/
def unknownOpcode (w : Word) (s : State) : State := raiseFault .unknownOpcode (some w) none s

/-! ## The key wait (44_keys_timers.md R195) -/

/-- The lowest key at or above `k` that is held, looking at `n` keys; 0 if none is. -/
def lowestHeldFrom (keys : BitVec 16) (k : Nat) : Nat → Nat
  | 0 => 0
  | n + 1 => if keys.getLsbD k then k else lowestHeldFrom keys (k + 1) n

/-- Any held key: the drawn one if it is held, else the lowest, which is the reference simulator's (R195; log 18). -/
def chooseKey (inp : Sample) : Nat :=
  if inp.keys.getLsbD inp.pick.val then inp.pick.val else lowestHeldFrom inp.keys 0 16

/-- `WaitPoll(K)` (R195) for a wait on register `x`. -/
def waitPoll (x : Reg) (s : State) : State :=
  if s.now.keys = 0 then s
  else ((s.setReg x (BitVec.ofNat 8 (chooseKey s.now))).setWait none).advance 2

/-! ## The event Load (70_reset_and_hazards.md R240, R241) -/

/-- `Load(rom)` with the parameters of the instance and its FONT. `none` is an unreadable ROM (log 22). A ROM above 3584
bytes is rejected, not truncated, and no instance exists. -/
def load (params : Params) (fontBytes : Vector Byte 80) (rom : Option (List Byte)) :
    Host.Outcome State Fault Refusal :=
  match rom with
  | none => .fault (.romLoadFailure none)
  | some bytes =>
    if romWellFormed bytes then
      .next { State.reset with
        params := params
        mem := Memory.writeBytes (Memory.writeBytes [] Config.fontBase fontBytes.toList) Config.romBase bytes }
    else .fault (.romLoadFailure (some bytes.length))

/-! ## What the host observes (10_state.md R53 to R56) -/

/-- `tone = (ST != 0)` (R54). -/
def State.tone (s : State) : Bool := s.st != 0

/-- A halted core has a fault record (00_scope.md R28). -/
def State.halted (s : State) : Bool := s.fault.isSome

/-! ## Placing one word (for withFetchWord) -/

/-- Where a word is placed so that the next fetch reads it: at pc, or at the reset vector if no fetch at pc can succeed
(log 23). -/
def fetchableAt (pc : Word) : Word := if pc.toNat ≤ 0xFFE then pc else BitVec.ofNat 16 Config.romBase

/-- The word stood at the place of the next fetch, high byte first, in a core that is neither halted nor waiting. -/
def placeWord (s : State) (w : Word) : State :=
  { s with
    pc := fetchableAt s.pc
    mem := s.mem.writeBytes (fetchableAt s.pc).toNat [hiByte w, loByte w]
    wait := none
    fault := none }

end Sys2Proof.Machine
end

