-- ==== Sys2Proof/Machine/Operands.lean ====
section
/-! DEFINITION. The operand forms: immediates, the skip distance, key indices, and the target cells of a sprite. -/

namespace Sys2Proof.Machine

/-! ## Immediates and addresses (30_encoding.md R84) -/

/-- NNN "is zero-extended to 16 bits wherever it is written" (R84). -/
def zext16 (nnn : BitVec 12) : Word := nnn.setWidth 16

/-- `x[0] + NNN`, exact and "not reduced to 12 bits" (41_control_flow.md R128). -/
def offsetTarget (v0 : Byte) (nnn : BitVec 12) : Word := BitVec.ofNat 16 (v0.toNat + nnn.toNat)

/-- `pc <- pc + (taken ? 4 : 2)` (R120, R124). -/
def State.skipIf (s : State) (taken : Bool) : State := s.advance (if taken then 4 else 2)

/-- The address of the glyph of a digit (43_index_memory.md R172), not masked. -/
def glyphAddress (v : Byte) : Word := BitVec.ofNat 16 (Config.fontBase + v.toNat * 5)

/-- The three decimal digits of a byte, hundreds first (R173). -/
def bcdDigits (v : Byte) : List Byte :=
  [BitVec.ofNat 8 (v.toNat / 100), BitVec.ofNat 8 (v.toNat / 10 % 10), BitVec.ofNat 8 (v.toNat % 10)]

/-! ## Keys (44_keys_timers.md R190) -/

/-- `Key(k)`, bit k of the Step's key snapshot (00_scope.md R23). -/
def State.keyHeld (s : State) (k : Nat) : Bool := s.now.keys.getLsbD k

/-- `KeyIndex(v)`: the key a register value names, or `none` where the policy makes it a fault (R190). -/
def keyIndex (policy : KeyIndexPolicy) (v : Byte) : Option Nat :=
  if v.toNat ≤ 0xF then some v.toNat
  else
    match policy with
    | .fault => none
    | .lowNibble => some (v.toNat % 16)

/-- Ex9E and ExA1: skip on the state of the key that `x[x]` names, or raise InvalidKeyIndex (R190 to R192). -/
def skipOnKey (x : Reg) (i : Instr) (wanted : Bool) (s : State) : State :=
  match keyIndex s.params.keyIndexPolicy (s.reg x) with
  | none => raiseFault .invalidKeyIndex (some (encode i)) (some ((s.reg x).setWidth 16)) s
  | some k => s.skipIf (s.keyHeld k == wanted)

/-! ## Sprites (40_display.md R101 to R104) -/

/-- `Target(tx, ty)`: the cell a sprite bit lands on, or `none` for OFF (R102). -/
def target (edge : SpriteEdge) (tx ty : Nat) : Option (Nat × Nat) :=
  match edge with
  | .wrap => some (tx % Config.fbWidth, ty % Config.fbHeight)
  | .clip => if tx < Config.fbWidth ∧ ty < Config.fbHeight then some (tx, ty) else none

/-- Bit 7 of a sprite row is column offset 0 (R104: from general knowledge; PRESUMED, log 12). -/
def spriteBit (row : Byte) (c : Nat) : Bool := row.getLsbD (7 - c)

/-- One sprite bit at (tx, ty): collision, then XOR (R101). The pair is the framebuffer and the collision flag. -/
def plotBit (edge : SpriteEdge) (tx ty : Nat) (bit : Bool) (p : FrameBuffer × Bool) : FrameBuffer × Bool :=
  match target edge tx ty with
  | none => p
  | some (cx, cy) =>
    (if bit then flipCell p.1 cx cy else p.1, p.2 || (bit && readCell p.1 cx cy))

/-- The columns `c`, `c + 1`, … of one sprite row, `n` of them (R101: 8 columns). -/
def plotCols (edge : SpriteEdge) (x0 y : Nat) (row : Byte) (c : Nat) :
    Nat → FrameBuffer × Bool → FrameBuffer × Bool
  | 0, p => p
  | n + 1, p => plotCols edge x0 y row (c + 1) n (plotBit edge (x0 + c) y (spriteBit row c) p)

/-- The sprite's rows, top row first (R101). -/
def plotRows (edge : SpriteEdge) (x0 y : Nat) : List Byte → FrameBuffer × Bool → FrameBuffer × Bool
  | [], p => p
  | row :: rows, p => plotRows edge x0 (y + 1) rows (plotCols edge x0 y row 0 8 p)

/-- The blit of `n` rows read at I, from origin `(x[x], x[y])`, both read before VF is written (R105). -/
def State.blit (s : State) (x y : Reg) (n : BitVec 4) : FrameBuffer × Bool :=
  plotRows s.params.spriteEdge (s.reg x).toNat (s.reg y).toNat
    (s.mem.readBytes s.index.toNat n.toNat) (s.fb, false)

end Sys2Proof.Machine
end

