-- ==== Sys2Proof/Machine/Flags.lean ====
section
/-! DEFINITION. The flag computations and the order of the flag and result writes (10_state.md R35, 42_alu.md R140). -/

namespace Sys2Proof.Machine

/-- A flag as VF holds it: 1 or 0 (10_state.md R35). -/
def flagByte (b : Bool) : Byte := if b then 1 else 0

/-- 8xy4: carry out of bit 7 (42_alu.md R147). -/
def carryFlag (a b : Byte) : Byte := flagByte (a.toNat + b.toNat > 255)

/-- 8xy5: `Vx > Vy`, strictly (R148). -/
def greaterFlag (a b : Byte) : Byte := flagByte (a.toNat > b.toNat)

/-- 8xy7: `Vy > Vx`, strictly (R150). -/
def lessFlag (a b : Byte) : Byte := flagByte (b.toNat > a.toNat)

/-- 8xy6: bit 0 before the shift (R149). -/
def lsbFlag (a _b : Byte) : Byte := flagByte (a.getLsbD 0)

/-- 8xyE: bit 7 before the shift (R151). -/
def msbFlag (a _b : Byte) : Byte := flagByte (a.getLsbD 7)

/-- Fx1E: the exact sum of the full 16-bit I and v exceeds 0xFFF (43_index_memory.md R171). -/
def indexFlag (index : Word) (v : Byte) : Byte := flagByte (index.toNat + v.toNat > 0xFFF)

/-- `(a + b) mod 256` (R147). -/
def addResult (a b : Byte) : Byte := a + b

/-- `(a − b) mod 256` (R148). -/
def subResult (a b : Byte) : Byte := a - b

/-- `(b − a) mod 256` (R150). -/
def subnResult (a b : Byte) : Byte := b - a

/-- `a >> 1` (R149); the second operand is not read. -/
def shrResult (a _b : Byte) : Byte := a >>> 1

/-- `(a << 1) mod 256` (R151); the second operand is not read. -/
def shlResult (a _b : Byte) : Byte := a <<< 1

/-- `(I + v) mod 65536` (43_index_memory.md R171). -/
def addToIndex (index : Word) (v : Byte) : Word := index + v.setWidth 16

/-- `FlagOp(f, r)` without its pc write (42_alu.md R140), for each value of FLAG_ORDER. -/
def flagOp (f r : Byte → Byte → Byte) (x y : Reg) (s : State) : State :=
  match s.params.flagOrder with
  | .sequential =>
    (s.setReg vf (f (s.reg x) (s.reg y))).setReg x
      (r ((s.setReg vf (f (s.reg x) (s.reg y))).reg x) ((s.setReg vf (f (s.reg x) (s.reg y))).reg y))
  | .flagThenResult => (s.setReg vf (f (s.reg x) (s.reg y))).setReg x (r (s.reg x) (s.reg y))
  | .resultThenFlag => (s.setReg x (r (s.reg x) (s.reg y))).setReg vf (f (s.reg x) (s.reg y))

/-- Fx1E without its pc write (43_index_memory.md R171): under SEQUENTIAL `x[X]` is read again after VF is written. -/
def indexOp (x : Reg) (s : State) : State :=
  match s.params.flagOrder with
  | .sequential =>
    (s.setReg vf (indexFlag s.index (s.reg x))).setIndex
      (addToIndex s.index ((s.setReg vf (indexFlag s.index (s.reg x))).reg x))
  | .flagThenResult => (s.setReg vf (indexFlag s.index (s.reg x))).setIndex (addToIndex s.index (s.reg x))
  | .resultThenFlag => (s.setReg vf (indexFlag s.index (s.reg x))).setIndex (addToIndex s.index (s.reg x))

end Sys2Proof.Machine
end

