-- ==== Sys2Proof/Machine/Alu.lean ====
section
/-! DEFINITION. The register and ALU instructions (42_alu.md). Each ends with `pc <- pc + 2` and none can raise a fault. -/

namespace Sys2Proof.Machine

/-- 6xkk (42_alu.md R141). -/
def execLdByte (x : Reg) (kk : Byte) (s : State) : Host.Outcome State Fault Refusal :=
  .next ((s.setReg x kk).advance 2)

/-- 7xkk (R142): no flag, even on wrap-around. -/
def execAddByte (x : Reg) (kk : Byte) (s : State) : Host.Outcome State Fault Refusal :=
  .next ((s.setReg x (addResult (s.reg x) kk)).advance 2)

/-- 8xy0 (R143). -/
def execLdReg (x y : Reg) (s : State) : Host.Outcome State Fault Refusal :=
  .next ((s.setReg x (s.reg y)).advance 2)

/-- 8xy1 (R144): VF is not reset. -/
def execOrReg (x y : Reg) (s : State) : Host.Outcome State Fault Refusal :=
  .next ((s.setReg x (s.reg x ||| s.reg y)).advance 2)

/-- 8xy2 (R145). -/
def execAndReg (x y : Reg) (s : State) : Host.Outcome State Fault Refusal :=
  .next ((s.setReg x (s.reg x &&& s.reg y)).advance 2)

/-- 8xy3 (R146). -/
def execXorReg (x y : Reg) (s : State) : Host.Outcome State Fault Refusal :=
  .next ((s.setReg x (s.reg x ^^^ s.reg y)).advance 2)

/-- 8xy4 (R147). -/
def execAddReg (x y : Reg) (s : State) : Host.Outcome State Fault Refusal :=
  .next ((flagOp carryFlag addResult x y s).advance 2)

/-- 8xy5 (R148): equal operands give VF = 0. -/
def execSubReg (x y : Reg) (s : State) : Host.Outcome State Fault Refusal :=
  .next ((flagOp greaterFlag subResult x y s).advance 2)

/-- 8xy6 (R149): the shift source is Vx; Y is encoded and not read. -/
def execShrReg (x y : Reg) (s : State) : Host.Outcome State Fault Refusal :=
  .next ((flagOp lsbFlag shrResult x y s).advance 2)

/-- 8xy7 (R150): equal operands give VF = 0. -/
def execSubnReg (x y : Reg) (s : State) : Host.Outcome State Fault Refusal :=
  .next ((flagOp lessFlag subnResult x y s).advance 2)

/-- 8xyE (R151). -/
def execShlReg (x y : Reg) (s : State) : Host.Outcome State Fault Refusal :=
  .next ((flagOp msbFlag shlResult x y s).advance 2)

/-- Cxkk (R152): `R & kk`, R the random byte of this Step (00_scope.md R20). -/
def execRnd (x : Reg) (kk : Byte) (s : State) : Host.Outcome State Fault Refusal :=
  .next ((s.setReg x (s.now.random &&& kk)).advance 2)

end Sys2Proof.Machine
end

