-- ==== Sys2Proof/Machine/Control.lean ====
section
/-! DEFINITION. The control transfers and skips (41_control_flow.md). No V register is written (R120). -/

namespace Sys2Proof.Machine

/-- 00EE (41_control_flow.md R121). -/
def execRet (s : State) : Host.Outcome State Fault Refusal :=
  .next (if s.sp = 0 then raiseFault .stackUnderflow (some (encode .ret)) none s
    else s.pop.setPc (s.pop.stackAt s.pop.sp.toNat))

/-- 1nnn (R122). -/
def execJp (nnn : BitVec 12) (s : State) : Host.Outcome State Fault Refusal :=
  .next (s.setPc (zext16 nnn))

/-- 2nnn (R123): the pushed value is the address of the next instruction. -/
def execCall (nnn : BitVec 12) (s : State) : Host.Outcome State Fault Refusal :=
  .next (if s.sp = 16 then raiseFault .stackOverflow (some (encode (.call nnn))) none s
    else (s.push (s.pc + 2)).setPc (zext16 nnn))

/-- 3xkk (R124). -/
def execSeByte (x : Reg) (kk : Byte) (s : State) : Host.Outcome State Fault Refusal :=
  .next (s.skipIf (s.reg x == kk))

/-- 4xkk (R125). -/
def execSneByte (x : Reg) (kk : Byte) (s : State) : Host.Outcome State Fault Refusal :=
  .next (s.skipIf (s.reg x != kk))

/-- 5xy0 (R126). -/
def execSeReg (x y : Reg) (s : State) : Host.Outcome State Fault Refusal :=
  .next (s.skipIf (s.reg x == s.reg y))

/-- 9xy0 (R127). -/
def execSneReg (x y : Reg) (s : State) : Host.Outcome State Fault Refusal :=
  .next (s.skipIf (s.reg x != s.reg y))

/-- Bnnn (R128): always V0. -/
def execJpV0 (nnn : BitVec 12) (s : State) : Host.Outcome State Fault Refusal :=
  .next (s.setPc (offsetTarget (s.reg 0) nnn))

end Sys2Proof.Machine
end

