-- ==== Sys2Proof/Machine/Display.lean ====
section
/-! DEFINITION. The display instructions (40_display.md). -/

namespace Sys2Proof.Machine

/-- 00E0 (40_display.md R100): every cell 0, `fb_changed` 1, VF not written. -/
def execCls (s : State) : Host.Outcome State Fault Refusal :=
  .next ((s.setFb clearedFb).advance 2)

/-- Dxyn (R101 to R106): the range check, then the blit; VF is the collision flag. With N = 0 there is no check, no
cell changes and VF is 0 (R106). -/
def execDrw (x y : Reg) (n : BitVec 4) (s : State) : Host.Outcome State Fault Refusal :=
  .next (withRange n.toNat (.drw x y n) s (fun s =>
    (((s.setFb (s.blit x y n).1).setReg vf (flagByte (s.blit x y n).2)).advance 2)))

end Sys2Proof.Machine
end

