-- ==== Sys2Proof/Machine/Index.lean ====
section
/-! DEFINITION. The index register and memory instructions (43_index_memory.md). None changes I as a side effect. -/

namespace Sys2Proof.Machine

/-- Annn (43_index_memory.md R170). -/
def execLdIndex (nnn : BitVec 12) (s : State) : Host.Outcome State Fault Refusal :=
  .next ((s.setIndex (zext16 nnn)).advance 2)

/-- Fx1E (R171). -/
def execAddIndex (x : Reg) (s : State) : Host.Outcome State Fault Refusal :=
  .next ((indexOp x s).advance 2)

/-- Fx29 (R172). -/
def execLdFont (x : Reg) (s : State) : Host.Outcome State Fault Refusal :=
  .next ((s.setIndex (glyphAddress (s.reg x))).advance 2)

/-- Fx33 (R173): three bytes at I. -/
def execLdBcd (x : Reg) (s : State) : Host.Outcome State Fault Refusal :=
  .next (withRange 3 (.ldBcd x) s (fun s =>
    (s.setMem (s.mem.writeBytes s.index.toNat (bcdDigits (s.reg x)))).advance 2))

/-- Fx55 (R174): X + 1 bytes at I, one per register V0..Vx. -/
def execStoreRegs (x : Reg) (s : State) : Host.Outcome State Fault Refusal :=
  .next (withRange (x.val + 1) (.storeRegs x) s (fun s =>
    (s.setMem (s.mem.writeBytes s.index.toNat (s.regsBelow (x.val + 1)))).advance 2))

/-- Fx65 (R175): X + 1 bytes at I, one per register V0..Vx. -/
def execLoadRegs (x : Reg) (s : State) : Host.Outcome State Fault Refusal :=
  .next (withRange (x.val + 1) (.loadRegs x) s (fun s =>
    (s.setRegs (loadPrefix s.v 0 (s.mem.readBytes s.index.toNat (x.val + 1)))).advance 2))

end Sys2Proof.Machine
end

