-- ==== Sys2Proof/Machine/Keys.lean ====
section
/-! DEFINITION. The key and timer instructions (44_keys_timers.md). -/

namespace Sys2Proof.Machine

/-- Ex9E (44_keys_timers.md R191). -/
def execSkp (x : Reg) (s : State) : Host.Outcome State Fault Refusal :=
  .next (skipOnKey x (.skp x) true s)

/-- ExA1 (R192). -/
def execSknp (x : Reg) (s : State) : Host.Outcome State Fault Refusal :=
  .next (skipOnKey x (.sknp x) false s)

/-- Fx07 (R193). -/
def execLdFromDelay (x : Reg) (s : State) : Host.Outcome State Fault Refusal :=
  .next ((s.setReg x s.dt).advance 2)

/-- Fx0A (R194): the core waits, pc stays, K is not polled in this Step. A later Step resolves the wait (`waitPoll`). -/
def execLdKey (x : Reg) (s : State) : Host.Outcome State Fault Refusal :=
  .next (s.setWait (some x))

/-- Fx15 (R196). -/
def execLdDelay (x : Reg) (s : State) : Host.Outcome State Fault Refusal :=
  .next ((s.setDt (s.reg x)).advance 2)

/-- Fx18 (R197). -/
def execLdSound (x : Reg) (s : State) : Host.Outcome State Fault Refusal :=
  .next ((s.setSt (s.reg x)).advance 2)

end Sys2Proof.Machine
end

