-- ==== Sys2Proof/Machine/Step.lean ====
section
/-! DEFINITION. One step: a turn of the scheduler (60_exceptions.md R221), that is the Ticks due and then one `Step(K, R)`
(30_encoding.md R86). -/

namespace Sys2Proof.Machine

/-- `Step(K, R)` once its inputs are sampled (R86): a halted core does nothing, a waiting one polls, any other fetches,
decodes and executes one instruction. -/
def stepEvent (s : State) : Host.Outcome State Fault Refusal :=
  if s.halted then .next s
  else
    match s.wait with
    | some x => .next (waitPoll x s)
    | none =>
      match fetchCheck s with
      | some addr => .next (fetchFault addr s)
      | none =>
        match decodeWord (fetchWord s) with
        | none => .next (unknownOpcode (fetchWord s) s)
        | some i => exec i s

/-- One turn of the scheduler. -/
def step (s : State) : Host.Outcome State Fault Refusal :=
  stepEvent (beginStep s)

/-- The table word `w` of `nbits` bits placed where `step` fetches next, in a core that is neither halted nor waiting
(log 23). -/
def State.withFetchWord (s : State) (nbits w : Nat) : State :=
  placeWord s (BitVec.ofNat 16 (w % 2 ^ nbits))

end Sys2Proof.Machine
end

