-- ==== Sys2Proof/Safety.lean ====
section
/-! DEFINITION. The terms claims use: the parts of the state and what a frame is, the events of a run, and what every
state of a run satisfies. -/

namespace Sys2Proof.Machine

/-! ## Frames -/

/-- The parts of the state that can change separately: the elements of 10_state.md R30 cell by cell, the `fb_changed`
output, and the environment's side (parameters, inputs, clock). -/
inductive Part where
  | reg (r : Reg)
  | index
  | pc
  | sp
  | stackEntry (j : Fin 16)
  | dt
  | st
  | byte (a : Nat)
  | cell (cx : Fin 64) (cy : Fin 32)
  | wait
  | fault
  | fbChanged
  | environment
deriving DecidableEq, Repr

/-- The part holds the same in both states; memory is compared through the read of one byte. -/
def Part.same : Part → State → State → Prop
  | .reg r, s, t => t.reg r = s.reg r
  | .index, s, t => t.index = s.index
  | .pc, s, t => t.pc = s.pc
  | .sp, s, t => t.sp = s.sp
  | .stackEntry j, s, t => t.stackAt j.val = s.stackAt j.val
  | .dt, s, t => t.dt = s.dt
  | .st, s, t => t.st = s.st
  | .byte a, s, t => t.mem.read a = s.mem.read a
  | .cell cx cy, s, t => readCell t.fb cx.val cy.val = readCell s.fb cx.val cy.val
  | .wait, s, t => t.wait = s.wait
  | .fault, s, t => t.fault = s.fault
  | .fbChanged, s, t => t.fbChanged = s.fbChanged
  | .environment, s, t => t.params = s.params ∧ t.now = s.now ∧ t.inputs = s.inputs ∧ t.clock = s.clock

/-- Everything but the parts in `changed` is the same in `t` as in `s`. -/
def Frame (changed : Part → Prop) (s t : State) : Prop := ∀ p, ¬ changed p → p.same s t

/-! ## Events and runs (10_state.md R50, 60_exceptions.md R216) -/

/-- What the environment does to a started instance, one atomic event at a time (10_state.md R50). -/
inductive Event where
  | step (inp : Sample)
  | tick
deriving DecidableEq, Repr

/-- One event. -/
def Event.apply : Event → State → Host.Outcome State Fault Refusal
  | .step inp, s => Sys2Proof.Machine.stepEvent (latch inp s)
  | .tick, s => .next (Sys2Proof.Machine.tick s)

/-- The states of a run: a load, then any interleaving of events (60_exceptions.md R216, R221). -/
inductive Reachable : State → Prop where
  | load (params : Params) (fontBytes : Vector Byte 80) (rom : Option (List Byte)) (s : State) :
      load params fontBytes rom = .next s → Reachable s
  | event (e : Event) (s t : State) : Reachable s → e.apply s = .next t → Reachable t

/-- A run is safe so far: no fault has been raised (60_exceptions.md R215). -/
def State.running (s : State) : Prop := s.fault = none

/-! ## Infinite runs and their fairness (60_exceptions.md R221)

A finite run takes any interleaving, as `Reachable` has it. Fairness is said of infinite ones only: a claim that something
happens in the end takes `Admissible`, and a claim about how many Steps fit between two Ticks names a rate bound. -/

/-- The events of an infinite run after its Load, in order. -/
abbrev Interleaving := Nat → Event

/-- "An interleaving is admissible when both kinds of event occur infinitely often in an infinite run" (R221). -/
structure Admissible (e : Interleaving) : Prop where
  steps : ∀ n, ∃ m, n ≤ m ∧ ∃ inp, e m = .step inp
  ticks : ∀ n, ∃ m, n ≤ m ∧ e m = .tick

/-- A rate bound from above: no more than `b` Steps stand in a row. -/
def AtMostStepsPerTick (b : Nat) (e : Interleaving) : Prop := ∀ n, ∃ m, n ≤ m ∧ m ≤ n + b ∧ e m = .tick

/-- A rate bound from below: at least `b` Steps stand between two Ticks. -/
def AtLeastStepsPerTick (b : Nat) (e : Interleaving) : Prop :=
  ∀ n m, n < m → e n = .tick → e m = .tick → n + b < m

/-- The states of an infinite run under an interleaving: event `n` takes state `n` to the next one. -/
def Follows (e : Interleaving) (states : Nat → State) : Prop :=
  ∀ n, (e n).apply (states n) = .next (states (n + 1))

/-- Turns, which is what `step` runs, are fair when Ticks never cease; a Step ends every turn. -/
def FairTurns (turns : Nat → Turn) : Prop := ∀ n, ∃ m, n ≤ m ∧ 0 < (turns m).ticks

/-- The turn that event number `n` belongs to, and how many of that turn's Ticks are still to come. -/
def turnAt (turns : Nat → Turn) : Nat → Nat × Nat
  | 0 => (0, (turns 0).ticks)
  | n + 1 =>
    match turnAt turns n with
    | (i, 0) => (i + 1, (turns (i + 1)).ticks)
    | (i, k + 1) => (i, k)

/-- The turns one after another, event by event: the Ticks of a turn, then its Step. -/
def interleavingOf (turns : Nat → Turn) : Interleaving := fun n =>
  match turnAt turns n with
  | (i, 0) => .step (turns i).sample
  | (_, _ + 1) => .tick

/-- "`STEPS_PER_TICK` Steps, then one Tick, repeated" (R222); `sample j` is what the environment supplies with Step `j`. -/
def referenceInterleaving (stepsPerTick : Nat) (sample : Nat → Sample) : Interleaving := fun n =>
  if n % (stepsPerTick + 1) = stepsPerTick then .tick
  else .step (sample (n / (stepsPerTick + 1) * stepsPerTick + n % (stepsPerTick + 1)))

/-! ## The Step event on the state vector alone (10_state.md R31) -/

/-- A state vector with the parameters and inputs of one Step beside it, and nothing carried over from before. -/
def StateVector.assemble (c : StateVector) (params : Params) (inp : Sample) : State :=
  { c with fbChanged := false, params := params, now := inp, inputs := [], clock := 0 }

/-- `Step(K, R)` in R31's form: the parameters and the inputs are arguments, `fb_changed` is an output, and only the state
vector goes in and comes out. The last two cases never arise: every Step answers a next state. -/
def StateVector.stepWith (params : Params) (inp : Sample) (c : StateVector) : StateVector × Bool :=
  match stepEvent (c.assemble params inp) with
  | .next t => (t.toStateVector, t.fbChanged)
  | .fault _ => (c, false)
  | .refused _ => (c, false)

/-! ## The invariant -/

/-- What every state of a run satisfies. -/
structure Inv (s : State) : Prop where
  /-- Memory is in canonical form, nothing listed above 0xFFF (20_memory.md R60). -/
  memory : Memory.wf s.mem
  /-- "SP never leaves 0..16" (10_state.md R40). -/
  sp : s.sp.toNat ≤ 16
  /-- The largest pc a rule writes (10_state.md R38). -/
  pc : s.pc.toNat ≤ 0x10FE
  /-- "A pushed return address is at most 0x1000" (R38). -/
  stack : ∀ j : Fin 16, (s.stackAt j.val).toNat ≤ 0x1000
  /-- A waiting core stands at an Fx0A it has fetched (44_keys_timers.md R194), and is not halted. -/
  waiting : ∀ x, s.wait = some x → s.pc.toNat ≤ 0xFFE ∧ s.fault = none
  /-- The record's pc is the pc the fault left unchanged (60_exceptions.md R213). -/
  faultPc : ∀ r, s.fault = some r → r.pc = s.pc

end Sys2Proof.Machine
end

