-- ==== Sys2Proof/Certificates/Slice0/Obligations.lean ====
section
/-! DEFINITION. What the provers are asked to prove about the model. Statements marked "model's choice" rest on an entry of
the assumption log or on a decision the spec marks as its own; the others formalise the rules they cite. -/

open Sys2Proof Sys2Proof.Machine

namespace Sys2Proof.Claims

/-! ## The terms the statements share -/

/-- The word of format NNN (30_encoding.md R83), written as a number. -/
def wordNNN (family : Nat) (nnn : BitVec 12) : Word := BitVec.ofNat 16 (4096 * family + nnn.toNat)

/-- The word of formats XKK and XF (R83). -/
def wordXKK (family : Nat) (x : Reg) (kk : Nat) : Word := BitVec.ofNat 16 (4096 * family + 256 * x.val + kk)

/-- The word of formats XYS and XYN (R83). -/
def wordXYN (family : Nat) (x y : Reg) (n : Nat) : Word :=
  BitVec.ofNat 16 (4096 * family + 256 * x.val + 16 * y.val + n)

/-- Executing `i` in `s` completes with `x[x] = b`, pc 2 further, and nothing else changed. -/
def SetsRegister (i : Instr) (s : State) (x : Reg) (b : Byte) : Prop :=
  ∃ t, exec i s = .next t ∧ t.reg x = b ∧ t.pc = s.pc + 2 ∧
    Frame (fun p => p = .pc ∨ p = .reg x) s t

/-- Executing `i` in `s` completes with the given pc and nothing else changed. -/
def SetsPc (i : Instr) (s : State) (pc : Word) : Prop :=
  ∃ t, exec i s = .next t ∧ t.pc = pc ∧ Frame (fun p => p = .pc) s t

/-- Executing `i` in `s` records the fault (cause, the pc of the instruction, its word, addr) and changes nothing else:
no register, memory byte, cell, sp or pc; `fb_changed` is 0. -/
def RaisesFault (i : Instr) (s : State) (cause : Cause) (opcode : Word) (addr : Option Word) : Prop :=
  ∃ t, exec i s = .next t ∧
    t.fault = some { cause := cause, pc := s.pc, opcode := some opcode, addr := addr } ∧
    t.fbChanged = false ∧ Frame (fun p => p = .fault ∨ p = .fbChanged) s t

/-- Executing `i` in `s` ends in `t`, with a fault of this cause recorded. (That a fault is a next state with a record is the
model's form, log 7.) -/
def EndsInFault (i : Instr) (s : State) (cause : Cause) (t : State) : Prop :=
  exec i s = .next t ∧ ∃ r, t.fault = some r ∧ r.cause = cause

/-- The fault recorded in `t`, if any, holds this pc and this word. -/
def Reports (t : State) (pc opcode : Word) : Prop := ∀ r, t.fault = some r → r.pc = pc ∧ r.opcode = some opcode

/-- A register file with one register replaced. -/
def updateReg (regs : Reg → Byte) (r : Reg) (b : Byte) : Reg → Byte := fun q => if q = r then b else regs q

/-- The registers after `FlagOp(f, r)` on X and Y, for each FLAG_ORDER (42_alu.md R140), on exact numbers. -/
def regsAfterFlagOp (order : FlagOrder) (f r : Nat → Nat → Nat) (x y : Reg) (regs : Reg → Byte) : Reg → Byte :=
  let apply (g : Nat → Nat → Nat) (file : Reg → Byte) : Byte := BitVec.ofNat 8 (g (file x).toNat (file y).toNat)
  match order with
  | .sequential => updateReg (updateReg regs vf (apply f regs)) x (apply r (updateReg regs vf (apply f regs)))
  | .flagThenResult => updateReg (updateReg regs vf (apply f regs)) x (apply r regs)
  | .resultThenFlag => updateReg (updateReg regs x (apply r regs)) vf (apply f regs)

/-- Executing the flag instruction `i` completes with the registers of `FlagOp(f, r)`, pc 2 further, and nothing else
changed. -/
def RunsFlagOp (i : Instr) (f r : Nat → Nat → Nat) (x y : Reg) (s : State) : Prop :=
  ∃ t, exec i s = .next t ∧ (∀ q, t.reg q = regsAfterFlagOp s.params.flagOrder f r x y s.reg q) ∧
    t.pc = s.pc + 2 ∧ Frame (fun p => p = .pc ∨ p = .reg x ∨ p = .reg vf) s t

/-- Executing `i` completes with `x[x] = result`, VF = flag, pc 2 further, and nothing else changed. -/
def SetsRegisterAndFlag (i : Instr) (s : State) (x : Reg) (result flag : Nat) : Prop :=
  ∃ t, exec i s = .next t ∧ (t.reg x).toNat = result ∧ (t.reg vf).toNat = flag ∧
    t.pc = s.pc + 2 ∧ Frame (fun p => p = .pc ∨ p = .reg x ∨ p = .reg vf) s t

/-- The next Step of `s` fetches and executes `i` (30_encoding.md R80, R86). -/
def Executes (s : State) (i : Instr) : Prop :=
  s.fault = none ∧ s.wait = none ∧ s.pc.toNat + 1 < Config.memSize ∧
    decodeBytes [s.mem.read s.pc.toNat, s.mem.read (s.pc.toNat + 1)] = .ok (i, [])

/-- The parts a turn of the scheduler changes before the instruction runs: the timers, `fb_changed`, the inputs. -/
def ByTurn (p : Part) : Prop := p = .dt ∨ p = .st ∨ p = .fbChanged ∨ p = .environment

/-- A timer after `n` Ticks: one down per Tick, never below 0 (60_exceptions.md R220). -/
def DecayedBy (n : Nat) (before after : Byte) : Prop := after.toNat = before.toNat - n

/-- Some sprite bit of 1 lands on cell (cx, cy) (40_display.md R101, R102, R104): row r, column c, with bit 7 of the row
byte at column offset 0, and the target reduced (WRAP) or dropped beyond the grid (CLIP). -/
def SpriteLights (s : State) (x y : Reg) (n : BitVec 4) (cx : Fin 64) (cy : Fin 32) : Prop :=
  ∃ r c : Nat, r < n.toNat ∧ c < 8 ∧ (s.mem.read (s.index.toNat + r)).getLsbD (7 - c) = true ∧
    match s.params.spriteEdge with
    | .wrap => ((s.reg x).toNat + c) % 64 = cx.val ∧ ((s.reg y).toNat + r) % 32 = cy.val
    | .clip => (s.reg x).toNat + c = cx.val ∧ (s.reg y).toNat + r = cy.val

/-- Dxyn's range check passes: no check when N = 0 (R101). -/
def SpriteInRange (s : State) (n : BitVec 4) : Prop := n = 0 ∨ s.index.toNat + n.toNat ≤ Config.memSize

/-- The instructions that write register `r` (10_state.md R34), Fx0A's later write apart. -/
def MayWriteRegister (r : Reg) : Instr → Prop
  | .ldByte x _ | .addByte x _ | .ldReg x _ | .orReg x _ | .andReg x _ | .xorReg x _ | .rnd x _ => r = x
  | .addReg x _ | .subReg x _ | .shrReg x _ | .subnReg x _ | .shlReg x _ => r = x ∨ r = vf
  | .ldFromDelay x => r = x
  | .loadRegs x => r.val ≤ x.val
  | .addIndex _ => r = vf
  | .drw _ _ _ => r = vf
  | .cls | .ret | .jp _ | .call _ | .seByte _ _ | .sneByte _ _ | .seReg _ _ | .sneReg _ _ | .ldIndex _ | .jpV0 _
  | .skp _ | .sknp _ | .ldKey _ | .ldDelay _ | .ldSound _ | .ldFont _ | .ldBcd _ | .storeRegs _ => False

end Sys2Proof.Claims

open Sys2Proof.Claims

/-! ## Encoding (30_encoding.md) -/

/-- Decoding the two bytes of an instruction, whatever follows them, gives the instruction back and leaves the rest
(30_encoding.md R81, R83, R90; R83 and R90 carry the spec's own decision D23). -/
def Obligations.DecodeOfEncodeGivesInstruction : Prop :=
  ∀ (i : Instr) (rest : List Byte), decodeBytes (encodeBytes i ++ rest) = .ok (i, rest)

/-- A word that decodes is the encoding of what it decodes to: no bit is dropped, the Y of SHR and SHL included (R90,
with the spec's own decision D23). -/
def Obligations.EncodeOfDecodeGivesWord : Prop :=
  ∀ (w : Word) (i : Instr), decodeWord w = some i → encode i = w

/-- The decoder accepts exactly the words of the opcode table, and a word matches at most one row (R85). -/
def Obligations.DecoderAcceptsOpcodeTable : Prop :=
  ∀ w : Word, ((decodeWord w).isSome = wordWellFormed w) ∧
    ∀ r₁ ∈ opcodeTable, ∀ r₂ ∈ opcodeTable, r₁.accepts w = true → r₂.accepts w = true → r₁ = r₂

/-- The words that do not decode are exactly those R87 lists (which the spec derives from R85). -/
def Obligations.UndecodedWordsAreTheIllegalOnes : Prop :=
  ∀ w : Word, decodeWord w = none ↔
    ((w.toNat < 0x1000 ∧ w.toNat ≠ 0x00E0 ∧ w.toNat ≠ 0x00EE) ∨
     (w.toNat / 4096 = 0x5 ∧ w.toNat % 16 ≠ 0) ∨
     (w.toNat / 4096 = 0x8 ∧ (w.toNat % 16 ∈ [0x8, 0x9, 0xA, 0xB, 0xC, 0xD, 0xF])) ∨
     (w.toNat / 4096 = 0x9 ∧ w.toNat % 16 ≠ 0) ∨
     (w.toNat / 4096 = 0xE ∧ w.toNat % 256 ∉ [0x9E, 0xA1]) ∨
     (w.toNat / 4096 = 0xF ∧ w.toNat % 256 ∉ [0x07, 0x0A, 0x15, 0x18, 0x1E, 0x29, 0x33, 0x55, 0x65]))

/-- The words R90 writes out, and `SHR V1` of its last sentence, decode to the instructions they stand for (R90 carries the
spec's own decision D23). -/
def Obligations.WrittenOutWordsDecode : Prop :=
  decodeWord 0x1204 = some (.jp 0x204) ∧ decodeWord 0x332A = some (.seByte 3 0x2A) ∧
  decodeWord 0x8124 = some (.addReg 1 2) ∧ decodeWord 0xD015 = some (.drw 0 1 5) ∧
  decodeWord 0xF565 = some (.loadRegs 5) ∧ decodeWord 0x8106 = some (.shrReg 1 0)

/-! ## The step (30_encoding.md R80, R86; 60_exceptions.md) -/

/-- When the bytes at pc decode to `i` in a core that is neither halted nor waiting, `step` is `exec i` on the state at the
start of the Step. That state differs from `s` only in what the turn does before the instruction: the timers are down by
the turn's Ticks, `fb_changed` is 0, the turn's inputs are sampled, the turn is taken off the list and counted. (R86 carries
the spec's own decision D1; that a step is a turn with listed or free inputs is the model's choice, log 1 to 3.) -/
def Obligations.StepRunsTheDecodedInstruction : Prop :=
  ∀ (s : State) (i : Instr), Executes s i →
    step s = exec i (beginStep s) ∧
    Frame ByTurn s (beginStep s) ∧
    DecayedBy s.nextTurn.ticks s.dt (beginStep s).dt ∧ DecayedBy s.nextTurn.ticks s.st (beginStep s).st ∧
    (beginStep s).fbChanged = false ∧ (beginStep s).now = s.nextTurn.sample ∧
    (beginStep s).params = s.params ∧ (beginStep s).inputs = s.inputs.tail ∧
    (beginStep s).clock = s.clock + 1 ∧
    ∀ turn rest, s.inputs = turn :: rest → s.nextTurn = turn

/-- A fetch succeeds only when pc <= 0xFFE; above it the Step records OutOfBounds with no opcode and
addr = max(pc, 0x1000), and writes nothing else (R80; the record's form is R213's, the spec's own decision D12). -/
def Obligations.FetchBeyondMemoryHalts : Prop :=
  ∀ s : State, s.fault = none → s.wait = none → 0xFFE < s.pc.toNat →
    ∃ t addr, step s = .next t ∧ addr.toNat = max s.pc.toNat 0x1000 ∧
      t.fault = some { cause := .outOfBounds, pc := s.pc, opcode := none, addr := some addr } ∧
      t.fbChanged = false ∧ Frame (fun p => ByTurn p ∨ p = .fault) s t

/-- A word that matches no pattern is fatal: the record holds the word and the pc it was fetched from, and the next Step leaves
the record and the pc as they are (R211). `HaltedCoreChangesNothing` says it of every later Step. -/
def Obligations.UnknownOpcodeIsFatal : Prop :=
  ∀ (s : State) (w : Word), s.fault = none → s.wait = none → s.pc.toNat ≤ 0xFFE →
    w = joinBytes (s.mem.read s.pc.toNat) (s.mem.read (s.pc.toNat + 1)) → wordWellFormed w = false →
    ∃ t, step s = .next t ∧ (∃ r, t.fault = some r ∧ r.cause = .unknownOpcode) ∧ Reports t s.pc w ∧
      ∃ u, step t = .next u ∧ u.fault = t.fault ∧ u.pc = t.pc

/-- The whole records of the faults that have no address (60_exceptions.md R213, R214, the spec's own decisions D11, D12): an
illegal word, a call with a full stack, a return with an empty one. Nothing else changes but the turn's part. -/
def Obligations.FaultsWithoutAddressAreRecorded : Prop :=
  ∀ s : State,
    (s.fault = none → s.wait = none → s.pc.toNat ≤ 0xFFE → wordWellFormed (fetchWord s) = false →
      ∃ t, step s = .next t ∧
        t.fault = some { cause := .unknownOpcode, pc := s.pc, opcode := some (fetchWord s), addr := none } ∧
        t.fbChanged = false ∧ Frame (fun p => ByTurn p ∨ p = .fault) s t) ∧
    (s.sp = 16 → ∀ nnn : BitVec 12, RaisesFault (.call nnn) s .stackOverflow (wordNNN 0x2 nnn) none) ∧
    (s.sp = 0 → RaisesFault .ret s .stackUnderflow 0x00EE none)

/-- "A halted core changes no state on any later Step or Tick" (R215, the spec's own decision D11 and D25). The Step's
inputs are still consumed (model's choice, log 28) and its `fb_changed` is 0. -/
def Obligations.HaltedCoreChangesNothing : Prop :=
  ∀ s : State, s.fault ≠ none →
    tick s = s ∧
    ∃ t, step s = .next t ∧ t.fbChanged = false ∧ t.params = s.params ∧
      Frame (fun p => p = .fbChanged ∨ p = .environment) s t

/-- A Step that raises a fault is precise (R214, the spec's own decision D11): no register, memory byte, cell, stack entry,
sp, pc, I or wait changes, `fb_changed` is 0, and the record's pc is the pc. The timers are down by the Ticks that came
before the Step. -/
def Obligations.FaultIsPrecise : Prop :=
  ∀ (s t : State) (r : FaultRecord), s.fault = none → step s = .next t → t.fault = some r →
    r.pc = s.pc ∧ t.fbChanged = false ∧
    DecayedBy s.nextTurn.ticks s.dt t.dt ∧ DecayedBy s.nextTurn.ticks s.st t.st ∧
    Frame (fun p => ByTurn p ∨ p = .fault) s t

/-- No step stops: every instruction, in every state, and every step answer a next state (R215, R216: a fault halts the core in
a state, nothing else ends a run). Model's choice where it says that a fault is a next state (log 7). -/
def Obligations.EveryStepAnswersNext : Prop :=
  (∀ (i : Instr) (s : State), ∃ t, exec i s = .next t) ∧ ∀ s : State, ∃ t, step s = .next t

/-- The scheduler's turn is its Ticks, one after another, then one Step event with the turn's inputs (R221; that a turn is
one model step is the model's choice, log 3). -/
def Obligations.TurnIsTicksThenStep : Prop :=
  ∀ s : State, step s =
    Event.apply (.step s.nextTurn.sample) (tick^[s.nextTurn.ticks] s).consumeTurn

/-- The reference schedule (R222, which carries the spec's own decision D17) of `n` Steps has `n` turns, and in all as many
Ticks as there are full groups of STEPS_PER_TICK Steps that another Step follows. R222's Tick after a last full group stands in
no turn: a turn is Ticks and then a Step, which is the model's choice (log 3). It is a count: `ReferenceScheduleTurn` says where
each Tick stands. -/
def Obligations.ReferenceScheduleCountsTicks : Prop :=
  ∀ (k n : Nat) (sample : Nat → Sample), 0 < k → 0 < n →
    (referenceSchedule k n sample).length = n ∧
    ((referenceSchedule k n sample).map Turn.ticks).sum = (n - 1) / k

/-! ## Load, Tick and the invariant (70_reset_and_hazards.md, 60_exceptions.md R220) -/

/-- `Load(rom)` (R240, R241): a ROM of at most 3584 bytes gives an instance with every element 0 or NONE, PC 0x200, the FONT
at 0x000, the ROM at 0x200 and 0 in the rest of memory; a longer or an unreadable ROM gives no instance, for any parameters
and FONT. (The form of an unreadable ROM and of "no instance" is the model's, log 8 and 22.) -/
def Obligations.LoadInitialisesTheCore : Prop :=
  ∀ (params : Params) (fontBytes : Vector Byte 80) (rom : List Byte),
    load params fontBytes none = .fault (.romLoadFailure none) ∧
    (3584 < rom.length → load params fontBytes (some rom) = .fault (.romLoadFailure (some rom.length))) ∧
    (rom.length ≤ 3584 → ∃ s, load params fontBytes (some rom) = .next s ∧
      (∀ r, s.reg r = 0) ∧ s.index = 0 ∧ s.pc = 0x200 ∧ s.sp = 0 ∧ (∀ j : Fin 16, s.stackAt j.val = 0) ∧
      s.dt = 0 ∧ s.st = 0 ∧ (∀ (cx : Fin 64) (cy : Fin 32), readCell s.fb cx.val cy.val = false) ∧
      s.wait = none ∧ s.fault = none ∧
      (∀ j : Fin 80, s.mem.read j.val = fontBytes[j.val]) ∧
      (∀ (j : Nat) (hj : j < rom.length), s.mem.read (0x200 + j) = rom[j]) ∧
      (∀ a, a < 4096 → 80 ≤ a → (a < 0x200 ∨ 0x200 + rom.length ≤ a) → s.mem.read a = 0))

/-- `Tick` (R220): each timer that is above 0 goes down by one, nothing else changes; a halted core ignores it. -/
def Obligations.TickDecrementsTimers : Prop :=
  ∀ s : State, (s.fault ≠ none → tick s = s) ∧
    (s.fault = none →
      (tick s).dt.toNat = s.dt.toNat - 1 ∧ (tick s).st.toNat = s.st.toNat - 1 ∧
      Frame (fun p => p = .dt ∨ p = .st) s (tick s))

/-- The invariant holds right after reset. -/
def Obligations.ResetSatisfiesInvariant : Prop := Inv State.reset

/-- Every step keeps the invariant: memory stays canonical (20_memory.md R60), sp in 0..16 (10_state.md R40), pc at most
0x10FE and return addresses at most 0x1000 (10_state.md R38), a waiting core stands where a fetch succeeds and is not
halted, a fault record names the pc (60_exceptions.md R213). -/
def Obligations.StepKeepsInvariant : Prop :=
  ∀ s t : State, Inv s → step s = .next t → Inv t

/-- Every state of every run, for any parameters, FONT and ROM and any interleaving of Steps and Ticks, satisfies the
invariant (60_exceptions.md R216, R221). -/
def Obligations.ReachableStatesSatisfyInvariant : Prop :=
  ∀ s : State, Reachable s → Inv s

/-! ## Who writes what: rules about the whole machine -/

/-- The writers of general registers (10_state.md R34): a register changes in a step only by an instruction that R34 lists
for it, or when a key wait on it resolves. -/
def Obligations.OnlyListedWritersChangeRegisters : Prop :=
  ∀ (s t : State) (r : Reg), step s = .next t → t.reg r ≠ s.reg r →
    (s.fault = none ∧ s.wait = some r) ∨ ∃ i, Executes s i ∧ MayWriteRegister r i

/-- Annn, Fx1E and Fx29 are the only writers of I (10_state.md R36, which carries the spec's own decision D10). -/
def Obligations.OnlyThreeInstructionsWriteIndex : Prop :=
  ∀ s t : State, step s = .next t → t.index ≠ s.index →
    ∃ i, Executes s i ∧ ((∃ nnn, i = .ldIndex nnn) ∨ (∃ x, i = .addIndex x) ∨ (∃ x, i = .ldFont x))

/-- Only Fx33 and Fx55 write memory, and only the bytes 20_memory.md R61 lists: I..I+2, and I..I+X. -/
def Obligations.OnlyTwoInstructionsWriteMemory : Prop :=
  ∀ (s t : State) (a : Nat), Memory.wf s.mem → step s = .next t → t.mem.read a ≠ s.mem.read a →
    ∃ i x, Executes s i ∧
      ((i = .ldBcd x ∧ s.index.toNat ≤ a ∧ a < s.index.toNat + 3) ∨
       (i = .storeRegs x ∧ s.index.toNat ≤ a ∧ a ≤ s.index.toNat + x.val))

/-- Only 00E0 and Dxyn change the framebuffer (10_state.md R48). -/
def Obligations.OnlyClearAndDrawChangeFramebuffer : Prop :=
  ∀ s t : State, step s = .next t → t.fb ≠ s.fb →
    ∃ i, Executes s i ∧ (i = .cls ∨ ∃ x y n, i = .drw x y n)

/-- Only 2nnn and 00EE change SP, and only 2nnn writes a stack entry, at index SP (10_state.md R40, and R41, which the spec
derives from R121 and R123). -/
def Obligations.OnlyCallAndReturnTouchTheStack : Prop :=
  ∀ s t : State, step s = .next t →
    (t.sp ≠ s.sp → ∃ i, Executes s i ∧ ((∃ nnn, i = .call nnn) ∨ i = .ret)) ∧
    ∀ j : Fin 16, t.stackAt j.val ≠ s.stackAt j.val → j.val = s.sp.toNat ∧ ∃ nnn, Executes s (.call nnn)

/-- Only Fx15 writes DT and only Fx18 writes ST among the instructions (10_state.md R42, R43). -/
def Obligations.OnlyTwoInstructionsWriteTimers : Prop :=
  ∀ (i : Instr) (s t : State), exec i s = .next t →
    (t.dt ≠ s.dt → ∃ x, i = .ldDelay x) ∧ (t.st ≠ s.st → ∃ x, i = .ldSound x)

/-- `fb_changed` is 1 for a Step that completes a 00E0 or a Dxyn without fault, and 0 for every other Step (10_state.md R52,
the spec's own decision D19; that it is a field of State is the model's choice, log 6). -/
def Obligations.FramebufferChangedSignalsClearAndDraw : Prop :=
  ∀ s t : State, step s = .next t →
    (t.fbChanged = true ↔ t.fault = none ∧ ∃ i, Executes s i ∧ (i = .cls ∨ ∃ x y n, i = .drw x y n))

/-- VF holds 0 or 1 after every instruction that defines a flag, but for FLAG_ORDER settings in which the result is written
over it (10_state.md R35). -/
def Obligations.FlagIsZeroOrOne : Prop :=
  ∀ (s t : State) (x y : Reg) (i : Instr),
    ((x ≠ vf ∨ s.params.flagOrder = .resultThenFlag) ∧
        i ∈ [Instr.addReg x y, .subReg x y, .shrReg x y, .subnReg x y, .shlReg x y]) ∨
      i = .addIndex x ∨ (∃ n, SpriteInRange s n ∧ i = .drw x y n) →
    exec i s = .next t → (t.reg vf).toNat ≤ 1

/-- An instance has the parameters it was loaded with, and no step or Tick writes them (00_scope.md section 2; that State
carries them is the model's choice, log 4). -/
def Obligations.ParametersNeverChange : Prop :=
  (∀ (params : Params) (fontBytes : Vector Byte 80) (rom : Option (List Byte)) (s : State),
    load params fontBytes rom = .next s → s.params = params) ∧
  ∀ s t : State, (tick s).params = s.params ∧ (step s = .next t → t.params = s.params)

/-- Among the instructions, the key snapshot and the random byte reach the state only through Cxkk, Ex9E and ExA1: any other
does the same whatever the Step's inputs are. The poll of a key wait, which is no instruction's execution, reads the keys too
(44_keys_timers.md R195) and is not spoken of here (`WaitResolvesOnAHeldKey`) (00_scope.md R20, 10_state.md R51, 44_keys_timers.md R194, which carry the spec's own
decisions D14 to D16; that State holds the inputs is the model's choice, log 1). -/
def Obligations.OtherInstructionsIgnoreTheInputs : Prop :=
  ∀ (i : Instr) (s t : State) (inp : Sample),
    (∀ x kk, i ≠ .rnd x kk) → (∀ x, i ≠ .skp x) → (∀ x, i ≠ .sknp x) →
    exec i s = .next t → exec i { s with now := inp } = .next { t with now := inp }

/-! ## Register and ALU instructions (42_alu.md) -/

/-- 6xkk, 7xkk, 8xy0, 8xy1, 8xy2, 8xy3 (R141 to R146): the encoding, the value written to Vx, pc + 2; VF is written only when
it is Vx. -/
def Obligations.LoadsAndLogicWriteVx : Prop :=
  ∀ (s : State) (x y : Reg) (kk : Byte),
    (decodeWord (wordXKK 0x6 x kk.toNat) = some (.ldByte x kk) ∧ SetsRegister (.ldByte x kk) s x kk) ∧
    (decodeWord (wordXKK 0x7 x kk.toNat) = some (.addByte x kk) ∧
      SetsRegister (.addByte x kk) s x (BitVec.ofNat 8 (((s.reg x).toNat + kk.toNat) % 256))) ∧
    (decodeWord (wordXYN 0x8 x y 0x0) = some (.ldReg x y) ∧ SetsRegister (.ldReg x y) s x (s.reg y)) ∧
    (decodeWord (wordXYN 0x8 x y 0x1) = some (.orReg x y) ∧
      SetsRegister (.orReg x y) s x (s.reg x ||| s.reg y)) ∧
    (decodeWord (wordXYN 0x8 x y 0x2) = some (.andReg x y) ∧
      SetsRegister (.andReg x y) s x (s.reg x &&& s.reg y)) ∧
    (decodeWord (wordXYN 0x8 x y 0x3) = some (.xorReg x y) ∧
      SetsRegister (.xorReg x y) s x (s.reg x ^^^ s.reg y))

/-- Cxkk (R152): Vx becomes R AND kk, R the random byte of the Step, whatever it is (the spec's own decision D16). -/
def Obligations.RandomByteIsMasked : Prop :=
  ∀ (s : State) (x : Reg) (kk : Byte),
    decodeWord (wordXKK 0xC x kk.toNat) = some (.rnd x kk) ∧
    SetsRegister (.rnd x kk) s x (s.now.random &&& kk)

/-- 8xy4, 8xy5, 8xy6, 8xy7, 8xyE for every X and Y, VF among them, and every FLAG_ORDER (R140, a parameter the spec marks as
its own decision D3, with the flag and result functions of R147 to R151). -/
def Obligations.FlagInstructionsFollowFlagOrder : Prop :=
  ∀ (s : State) (x y : Reg),
    (decodeWord (wordXYN 0x8 x y 0x4) = some (.addReg x y) ∧
      RunsFlagOp (.addReg x y) (fun a b => if a + b > 255 then 1 else 0) (fun a b => (a + b) % 256) x y s) ∧
    (decodeWord (wordXYN 0x8 x y 0x5) = some (.subReg x y) ∧
      RunsFlagOp (.subReg x y) (fun a b => if a > b then 1 else 0)
        (fun a b => if a ≥ b then a - b else a + 256 - b) x y s) ∧
    (decodeWord (wordXYN 0x8 x y 0x6) = some (.shrReg x y) ∧
      RunsFlagOp (.shrReg x y) (fun a _ => a % 2) (fun a _ => a / 2) x y s) ∧
    (decodeWord (wordXYN 0x8 x y 0x7) = some (.subnReg x y) ∧
      RunsFlagOp (.subnReg x y) (fun a b => if b > a then 1 else 0)
        (fun a b => if b ≥ a then b - a else b + 256 - a) x y s) ∧
    (decodeWord (wordXYN 0x8 x y 0xE) = some (.shlReg x y) ∧
      RunsFlagOp (.shlReg x y) (fun a _ => a / 128) (fun a _ => 2 * a % 256) x y s)

/-- The five flag instructions when neither operand is VF: every FLAG_ORDER gives Vx the result and VF the flag (R140, R147
to R151). Equal operands of SUB and SUBN give VF = 0. -/
def Obligations.FlagInstructionsOnPlainRegisters : Prop :=
  ∀ (s : State) (x y : Reg) (a b : Nat), x ≠ vf → y ≠ vf → a = (s.reg x).toNat → b = (s.reg y).toNat →
    SetsRegisterAndFlag (.addReg x y) s x ((a + b) % 256) (if a + b > 255 then 1 else 0) ∧
    SetsRegisterAndFlag (.subReg x y) s x (if a ≥ b then a - b else a + 256 - b) (if a > b then 1 else 0) ∧
    SetsRegisterAndFlag (.shrReg x y) s x (a / 2) (a % 2) ∧
    SetsRegisterAndFlag (.subnReg x y) s x (if b ≥ a then b - a else b + 256 - a) (if b > a then 1 else 0) ∧
    SetsRegisterAndFlag (.shlReg x y) s x (2 * a % 256) (if a ≥ 128 then 1 else 0)

/-! ## Control transfers and skips (41_control_flow.md) -/

/-- 3xkk, 4xkk, 5xy0, 9xy0 (R124 to R127): net +4 when the test holds, +2 otherwise; no V register is written. 5xyN and 9xyN
with N not 0 do not decode. -/
def Obligations.SkipsAdvanceByFourOrTwo : Prop :=
  ∀ (s : State) (x y : Reg) (kk : Byte),
    (decodeWord (wordXKK 0x3 x kk.toNat) = some (.seByte x kk) ∧
      (s.reg x = kk → SetsPc (.seByte x kk) s (s.pc + 4)) ∧
      (s.reg x ≠ kk → SetsPc (.seByte x kk) s (s.pc + 2))) ∧
    (decodeWord (wordXKK 0x4 x kk.toNat) = some (.sneByte x kk) ∧
      (s.reg x ≠ kk → SetsPc (.sneByte x kk) s (s.pc + 4)) ∧
      (s.reg x = kk → SetsPc (.sneByte x kk) s (s.pc + 2))) ∧
    (decodeWord (wordXYN 0x5 x y 0) = some (.seReg x y) ∧
      (∀ n : BitVec 4, n ≠ 0 → decodeWord (wordXYN 0x5 x y n.toNat) = none) ∧
      (s.reg x = s.reg y → SetsPc (.seReg x y) s (s.pc + 4)) ∧
      (s.reg x ≠ s.reg y → SetsPc (.seReg x y) s (s.pc + 2))) ∧
    (decodeWord (wordXYN 0x9 x y 0) = some (.sneReg x y) ∧
      (∀ n : BitVec 4, n ≠ 0 → decodeWord (wordXYN 0x9 x y n.toNat) = none) ∧
      (s.reg x ≠ s.reg y → SetsPc (.sneReg x y) s (s.pc + 4)) ∧
      (s.reg x = s.reg y → SetsPc (.sneReg x y) s (s.pc + 2)))

/-- 1nnn and Bnnn (R122, R128): pc becomes NNN, or the exact sum V0 + NNN, not reduced to 12 bits; nothing else changes. -/
def Obligations.JumpsSetThePc : Prop :=
  ∀ (s : State) (nnn : BitVec 12),
    decodeWord (wordNNN 0x1 nnn) = some (.jp nnn) ∧
    SetsPc (.jp nnn) s (BitVec.ofNat 16 nnn.toNat) ∧
    decodeWord (wordNNN 0xB nnn) = some (.jpV0 nnn) ∧
    ∃ pc : Word, pc.toNat = (s.reg 0).toNat + nnn.toNat ∧ SetsPc (.jpV0 nnn) s pc

/-- 2nnn (R123): stack[sp] = pc + 2, sp + 1, pc = NNN; with sp = 16 a StackOverflow that writes nothing. -/
def Obligations.CallPushesTheReturnAddress : Prop :=
  ∀ (s : State) (nnn : BitVec 12),
    decodeWord (wordNNN 0x2 nnn) = some (.call nnn) ∧
    (s.sp = 16 → ∃ t, EndsInFault (.call nnn) s .stackOverflow t ∧ Reports t s.pc (wordNNN 0x2 nnn) ∧
      Frame (fun p => p = .fault ∨ p = .fbChanged) s t) ∧
    ∀ j : Fin 16, s.sp.toNat = j.val →
      ∃ t, exec (.call nnn) s = .next t ∧ t.stackAt j.val = s.pc + 2 ∧ t.sp = s.sp + 1 ∧
        t.pc = BitVec.ofNat 16 nnn.toNat ∧
        Frame (fun p => p = .pc ∨ p = .sp ∨ p = .stackEntry j) s t

/-- 00EE (R121): sp - 1, pc = stack[sp - 1], the stack's entries unchanged; with sp = 0 a StackUnderflow with sp and pc
unchanged. -/
def Obligations.ReturnPopsTheReturnAddress : Prop :=
  decodeWord 0x00EE = some .ret ∧
  ∀ s : State,
    (s.sp = 0 → ∃ t, EndsInFault .ret s .stackUnderflow t ∧ Reports t s.pc 0x00EE ∧ t.sp = s.sp ∧ t.pc = s.pc) ∧
    ∀ j : Fin 16, s.sp.toNat = j.val + 1 →
      ∃ t, exec .ret s = .next t ∧ t.sp.toNat = j.val ∧ t.pc = s.stackAt j.val ∧
        Frame (fun p => p = .pc ∨ p = .sp) s t

/-- A call, then a return from any state of the callee with the stack as the call left it, comes back to the instruction
after the call with SP as before (R121, R123; 95_test_vectors.md W8). -/
def Obligations.ReturnUndoesCall : Prop :=
  ∀ (s t u : State) (nnn : BitVec 12), s.sp.toNat < 16 → exec (.call nnn) s = .next t →
    u.sp = t.sp → (∀ j : Fin 16, u.stackAt j.val = t.stackAt j.val) →
    ∃ w, exec .ret u = .next w ∧ w.pc = s.pc + 2 ∧ w.sp = s.sp

/-! ## Index register and memory (43_index_memory.md) -/

/-- Annn and Fx29 (R170, R172): I becomes NNN, or the address of the glyph, x[X] * 5; nothing else but pc changes. That Fx29
does not mask x[X] above 0xF is the spec's own decision D22 and the model's choice with it (log 19). -/
def Obligations.IndexLoads : Prop :=
  ∀ (s : State) (x : Reg) (nnn : BitVec 12),
    (decodeWord (wordNNN 0xA nnn) = some (.ldIndex nnn) ∧
      ∃ t, exec (.ldIndex nnn) s = .next t ∧ t.index.toNat = nnn.toNat ∧ t.pc = s.pc + 2 ∧
        Frame (fun p => p = .pc ∨ p = .index) s t) ∧
    (decodeWord (wordXKK 0xF x 0x29) = some (.ldFont x) ∧
      ∃ t, exec (.ldFont x) s = .next t ∧ t.index.toNat = (s.reg x).toNat * 5 ∧ t.pc = s.pc + 2 ∧
        Frame (fun p => p = .pc ∨ p = .index) s t)

/-- Fx1E (R171): VF tells whether the exact sum I + Vx exceeds 0xFFF; I becomes the sum mod 65536 (the spec's own decision D10).
Under SEQUENTIAL Vx is read again after VF is written (decision D3), which matters for X = F only. -/
def Obligations.AddToIndexSetsOverflowFlag : Prop :=
  ∀ (s : State) (x : Reg) (flag addend : Nat),
    flag = (if s.index.toNat + (s.reg x).toNat > 0xFFF then 1 else 0) →
    addend = (if s.params.flagOrder = .sequential ∧ x = vf then flag else (s.reg x).toNat) →
    decodeWord (wordXKK 0xF x 0x1E) = some (.addIndex x) ∧
    ∃ t, exec (.addIndex x) s = .next t ∧ (t.reg vf).toNat = flag ∧
      t.index.toNat = (s.index.toNat + addend) % 65536 ∧ t.pc = s.pc + 2 ∧
      Frame (fun p => p = .pc ∨ p = .index ∨ p = .reg vf) s t

/-- Fx33 (R173): the three decimal digits of Vx at I, I+1, I+2, every other byte and I unchanged; OutOfBounds when
I + 2 > 0xFFF. -/
def Obligations.BcdStoresThreeDigits : Prop :=
  ∀ (s : State) (x : Reg), Memory.wf s.mem →
    decodeWord (wordXKK 0xF x 0x33) = some (.ldBcd x) ∧
    (s.index.toNat + 2 > 0xFFF →
      ∃ t, EndsInFault (.ldBcd x) s .outOfBounds t) ∧
    (s.index.toNat + 2 ≤ 0xFFF →
      ∃ t, exec (.ldBcd x) s = .next t ∧
        (t.mem.read s.index.toNat).toNat = (s.reg x).toNat / 100 ∧
        (t.mem.read (s.index.toNat + 1)).toNat = (s.reg x).toNat / 10 % 10 ∧
        (t.mem.read (s.index.toNat + 2)).toNat = (s.reg x).toNat % 10 ∧
        t.pc = s.pc + 2 ∧
        Frame (fun p => p = .pc ∨ ∃ a, p = .byte a ∧ s.index.toNat ≤ a ∧ a < s.index.toNat + 3) s t)

/-- Fx55 (R174): V0..Vx at I..I+X, every other byte and I unchanged; OutOfBounds when I + X > 0xFFF. -/
def Obligations.StoreRegistersWritesMemory : Prop :=
  ∀ (s : State) (x : Reg), Memory.wf s.mem →
    decodeWord (wordXKK 0xF x 0x55) = some (.storeRegs x) ∧
    (s.index.toNat + x.val > 0xFFF →
      ∃ t, EndsInFault (.storeRegs x) s .outOfBounds t) ∧
    (s.index.toNat + x.val ≤ 0xFFF →
      ∃ t, exec (.storeRegs x) s = .next t ∧
        (∀ j : Reg, j ≤ x → t.mem.read (s.index.toNat + j.val) = s.reg j) ∧
        t.pc = s.pc + 2 ∧
        Frame (fun p => p = .pc ∨ ∃ a, p = .byte a ∧ s.index.toNat ≤ a ∧ a ≤ s.index.toNat + x.val) s t)

/-- Fx65 (R175): V0..Vx from I..I+X, the other registers and I unchanged; OutOfBounds, with no register written, when
I + X > 0xFFF. -/
def Obligations.LoadRegistersReadsMemory : Prop :=
  ∀ (s : State) (x : Reg),
    decodeWord (wordXKK 0xF x 0x65) = some (.loadRegs x) ∧
    (s.index.toNat + x.val > 0xFFF →
      ∃ t, EndsInFault (.loadRegs x) s .outOfBounds t ∧ ∀ j, t.reg j = s.reg j) ∧
    (s.index.toNat + x.val ≤ 0xFFF →
      ∃ t, exec (.loadRegs x) s = .next t ∧
        (∀ j : Reg, j ≤ x → t.reg j = s.mem.read (s.index.toNat + j.val)) ∧
        t.pc = s.pc + 2 ∧
        Frame (fun p => p = .pc ∨ ∃ j : Reg, p = .reg j ∧ j ≤ x) s t)

/-- An access that reaches above 0xFFF (60_exceptions.md R212): Dxyn with N > 0, Fx33, Fx55 and Fx65 record OutOfBounds, their
word and the address max(I, 0x1000), and write nothing else (the record is R213's, the spec's own decision D12; no address is
masked, decision D10). -/
def Obligations.OutOfRangeAccessReportsLowestAddress : Prop :=
  ∀ (s : State) (x y : Reg) (n : BitVec 4) (addr : Word), addr.toNat = max s.index.toNat 0x1000 →
    (n ≠ 0 → s.index.toNat + n.toNat - 1 > 0xFFF →
      RaisesFault (.drw x y n) s .outOfBounds (wordXYN 0xD x y n.toNat) (some addr)) ∧
    (s.index.toNat + 2 > 0xFFF → RaisesFault (.ldBcd x) s .outOfBounds (wordXKK 0xF x 0x33) (some addr)) ∧
    (s.index.toNat + x.val > 0xFFF →
      RaisesFault (.storeRegs x) s .outOfBounds (wordXKK 0xF x 0x55) (some addr) ∧
      RaisesFault (.loadRegs x) s .outOfBounds (wordXKK 0xF x 0x65) (some addr))

/-- Self-modifying code: the word an Fx55 stores where the next instruction stands is the word the next Step fetches and
executes (20_memory.md R71, which the spec derives; 70_reset_and_hazards.md R247). -/
def Obligations.StoredCodeIsExecutedNext : Prop :=
  ∀ (s t : State) (x : Reg) (i : Instr), Memory.wf s.mem → s.fault = none → s.wait = none → 1 ≤ x.val →
    s.index = s.pc + 2 → s.index.toNat + x.val ≤ 0xFFF → exec (.storeRegs x) s = .next t →
    decodeWord (joinBytes (s.reg 0) (s.reg 1)) = some i → step t = exec i (beginStep t)

/-- Two memories in canonical form that read the same at every address are the same list: the form is unique, so equal
memories are equal data (20_memory.md R60; the list form is the model's choice, log 9). -/
def Obligations.CanonicalMemoryIsUnique : Prop :=
  ∀ m m' : Memory, Memory.wf m → Memory.wf m' → (∀ a, m.read a = m'.read a) → m = m'

/-! ## Keys and timers (44_keys_timers.md) -/

/-- Ex9E and ExA1 (R191, R192), with the key index of R190 (a parameter the spec marks as its own decision D13): a value up to
0xF names its key; above it, FAULT records InvalidKeyIndex and the value and writes nothing else, LOW_NIBBLE takes the low
nibble. -/
def Obligations.KeySkipsTestOneKey : Prop :=
  ∀ (s : State) (x : Reg) (v k : Nat), v = (s.reg x).toNat →
    decodeWord (wordXKK 0xE x 0x9E) = some (.skp x) ∧ decodeWord (wordXKK 0xE x 0xA1) = some (.sknp x) ∧
    (0xF < v → s.params.keyIndexPolicy = .fault →
      RaisesFault (.skp x) s .invalidKeyIndex (wordXKK 0xE x 0x9E) (some (BitVec.ofNat 16 v)) ∧
      RaisesFault (.sknp x) s .invalidKeyIndex (wordXKK 0xE x 0xA1) (some (BitVec.ofNat 16 v))) ∧
    ((v ≤ 0xF ∧ k = v) ∨ (0xF < v ∧ s.params.keyIndexPolicy = .lowNibble ∧ k = v % 16) →
      (s.now.keys.getLsbD k = true → SetsPc (.skp x) s (s.pc + 4) ∧ SetsPc (.sknp x) s (s.pc + 2)) ∧
      (s.now.keys.getLsbD k = false → SetsPc (.skp x) s (s.pc + 2) ∧ SetsPc (.sknp x) s (s.pc + 4)))

/-- Fx07, Fx15, Fx18 (R193, R196, R197): Vx = DT, DT = Vx, ST = Vx, and the tone sounds exactly when ST is not 0; nothing else
but pc changes. -/
def Obligations.TimerMoves : Prop :=
  ∀ (s : State) (x : Reg),
    (decodeWord (wordXKK 0xF x 0x07) = some (.ldFromDelay x) ∧ SetsRegister (.ldFromDelay x) s x s.dt) ∧
    (decodeWord (wordXKK 0xF x 0x15) = some (.ldDelay x) ∧
      ∃ t, exec (.ldDelay x) s = .next t ∧ t.dt = s.reg x ∧ t.pc = s.pc + 2 ∧
        Frame (fun p => p = .pc ∨ p = .dt) s t) ∧
    (decodeWord (wordXKK 0xF x 0x18) = some (.ldSound x) ∧
      ∃ t, exec (.ldSound x) s = .next t ∧ t.st = s.reg x ∧ (t.tone = true ↔ s.reg x ≠ 0) ∧ t.pc = s.pc + 2 ∧
        Frame (fun p => p = .pc ∨ p = .st) s t)

/-- Fx0A (R194, the spec's own decision D14): the core starts to wait on Vx; pc stays, the keys are not polled, nothing else
changes. -/
def Obligations.KeyWaitStartsWithoutPolling : Prop :=
  ∀ (s : State) (x : Reg),
    decodeWord (wordXKK 0xF x 0x0A) = some (.ldKey x) ∧
    ∃ t, exec (.ldKey x) s = .next t ∧ t.wait = some x ∧ t.pc = s.pc ∧ Frame (fun p => p = .wait) s t

/-- A Step of a waiting core (R195, the spec's own decision D14): with no key held nothing but the turn's part changes; with a
key held, Vx becomes the index of a held key, the wait ends and pc goes on by 2. Any held key can be the one (model's choice of
form, log 18). -/
def Obligations.WaitResolvesOnAHeldKey : Prop :=
  ∀ (s : State) (x : Reg), s.fault = none → s.wait = some x →
    (s.nextTurn.sample.keys = 0 → ∃ t, step s = .next t ∧ t.fbChanged = false ∧ Frame ByTurn s t) ∧
    (s.nextTurn.sample.keys ≠ 0 →
      ∃ t k, step s = .next t ∧ k < 16 ∧ s.nextTurn.sample.keys.getLsbD k = true ∧ (t.reg x).toNat = k ∧
        t.wait = none ∧ t.pc = s.pc + 2 ∧ t.fbChanged = false ∧
        (s.nextTurn.sample.keys.getLsbD s.nextTurn.sample.pick.val = true → k = s.nextTurn.sample.pick.val) ∧
        Frame (fun p => ByTurn p ∨ p = .reg x ∨ p = .wait ∨ p = .pc) s t)

/-! ## Display (40_display.md) -/

/-- 00E0 (R100): every cell 0, `fb_changed` 1, pc + 2, no register or memory byte changed. -/
def Obligations.ClearZeroesEveryCell : Prop :=
  decodeWord 0x00E0 = some .cls ∧
  ∀ s : State, ∃ t, exec .cls s = .next t ∧
    (∀ (cx : Fin 64) (cy : Fin 32), readCell t.fb cx.val cy.val = false) ∧
    t.fbChanged = true ∧ t.pc = s.pc + 2 ∧
    Frame (fun p => p = .pc ∨ p = .fbChanged ∨ ∃ cx cy, p = .cell cx cy) s t

/-- Dxyn (R101): each cell is XORed with the sprite bit that lands on it, `fb_changed` is 1, pc + 2, and no other part but VF
changes. It holds for N = 0 and any I (R106, the spec's own decision D7), for both edge policies (R102, decision D5), with X or Y
equal to F (R105, decision D4), and takes bit 7 as the leftmost column (R104, from general knowledge; log 12). -/
def Obligations.DrawXorsTheSprite : Prop :=
  ∀ (s : State) (x y : Reg) (n : BitVec 4),
    decodeWord (wordXYN 0xD x y n.toNat) = some (.drw x y n) ∧
    (SpriteInRange s n → ∃ t, exec (.drw x y n) s = .next t ∧
      (∀ (cx : Fin 64) (cy : Fin 32), readCell t.fb cx.val cy.val = true ↔
        (readCell s.fb cx.val cy.val = true ↔ ¬ SpriteLights s x y n cx cy)) ∧
      t.fbChanged = true ∧ t.pc = s.pc + 2 ∧
      Frame (fun p => p = .pc ∨ p = .fbChanged ∨ p = .reg vf ∨ ∃ cx cy, p = .cell cx cy) s t)

/-- VF is 1 after a Dxyn when some cell went from 1 to 0, and 0 when none did (R103, which the spec derives from R101). -/
def Obligations.CollisionFlagReportsErasedCells : Prop :=
  ∀ (s t : State) (x y : Reg) (n : BitVec 4), SpriteInRange s n → exec (.drw x y n) s = .next t →
    ((∃ (cx : Fin 64) (cy : Fin 32), readCell s.fb cx.val cy.val = true ∧ readCell t.fb cx.val cy.val = false) →
      t.reg vf = 1) ∧
    ((∀ (cx : Fin 64) (cy : Fin 32), readCell s.fb cx.val cy.val = true → readCell t.fb cx.val cy.val = true) →
      t.reg vf = 0)

/-- Drawing the same sprite twice at the same coordinates restores every cell; if the sprite lit a cell and all cells it lights
were 0, the first draw gives VF = 0 and the second VF = 1 (R101, R103; 95_test_vectors.md W7). The coordinates are the same
because neither register is VF. It rests on the edge policies and the bit order as `DrawXorsTheSprite` does (decisions D5, D6;
log 12). -/
def Obligations.DrawingTwiceRestoresTheCells : Prop :=
  ∀ (s t u : State) (x y : Reg) (n : BitVec 4), SpriteInRange s n → x ≠ vf → y ≠ vf →
    exec (.drw x y n) s = .next t → exec (.drw x y n) t = .next u →
    u.fb = s.fb ∧
    ((∃ cx cy, SpriteLights s x y n cx cy) →
      (∀ cx cy, SpriteLights s x y n cx cy → readCell s.fb cx.val cy.val = false) →
      t.reg vf = 0 ∧ u.reg vf = 1)

/-! ## The state vector, the causes and the reference schedule once more -/

/-- Nothing outside the state vector persists in a step (10_state.md R30, R31; R31 carries the spec's own decision D2): the
vector and `fb_changed` after a step are those of `Step(K, R)` on the vector alone, with the parameters and the turn's inputs as
arguments, after the turn's Ticks; and a Tick's vector depends on the vector only. That the fields beside the vector stand in
State is the model's choice (log 1, 4, 6, 29). -/
def Obligations.StepIsStepOfTheStateVector : Prop :=
  (∀ s t : State, step s = .next t →
    (t.toStateVector, t.fbChanged) =
      (tick^[s.nextTurn.ticks] s).toStateVector.stepWith s.params s.nextTurn.sample) ∧
  ∀ s s' : State, s.toStateVector = s'.toStateVector → (tick s).toStateVector = (tick s').toStateVector

/-- "No other condition faults" (60_exceptions.md R210, which carries the spec's own decision D12): a fault that a step raises
has a cause of the table, under the condition the table gives that cause. -/
def Obligations.FaultsHaveTheListedConditions : Prop :=
  ∀ (s t : State) (r : FaultRecord), s.fault = none → step s = .next t → t.fault = some r →
    s.wait = none ∧
    match r.cause with
    | .outOfBounds =>
      0xFFE < s.pc.toNat ∨
      (∃ x y n, Executes s (.drw x y n) ∧ 0 < n.toNat ∧ s.index.toNat + n.toNat - 1 > 0xFFF) ∨
      (∃ x, Executes s (.ldBcd x) ∧ s.index.toNat + 2 > 0xFFF) ∨
      ∃ x, (Executes s (.storeRegs x) ∨ Executes s (.loadRegs x)) ∧ s.index.toNat + x.val > 0xFFF
    | .unknownOpcode => s.pc.toNat ≤ 0xFFE ∧ wordWellFormed (fetchWord s) = false
    | .stackOverflow => s.sp = 16 ∧ ∃ nnn, Executes s (.call nnn)
    | .stackUnderflow => s.sp = 0 ∧ Executes s .ret
    | .invalidKeyIndex =>
      s.params.keyIndexPolicy = .fault ∧
      ∃ x, 0xF < (s.reg x).toNat ∧ (Executes s (.skp x) ∨ Executes s (.sknp x))

/-- The six codes of the cause table (60_exceptions.md R210; the numbers are the spec's own decision D12): the run-time causes
have 1, 2, 3, 4 and 6, and a Load that fails has 5, with the ROM's length where the ROM was readable (the form is the model's,
log 8 and 22). -/
def Obligations.CauseCodesAreThoseOfTheTable : Prop :=
  Cause.outOfBounds.code = 1 ∧ Cause.unknownOpcode.code = 2 ∧ Cause.stackOverflow.code = 3 ∧
  Cause.stackUnderflow.code = 4 ∧ Cause.invalidKeyIndex.code = 6 ∧
  ∀ (params : Params) (fontBytes : Vector Byte 80) (rom : Option (List Byte)) (f : Fault),
    load params fontBytes rom = .fault f → f.code = 5 ∧ f = .romLoadFailure (rom.map List.length)

/-- Where the Ticks of the reference schedule stand (60_exceptions.md R222, which carries the spec's own decision D17): turn `j`
has one Tick if STEPS_PER_TICK Steps, or a multiple of them, have just gone by, and none otherwise; its Step has the inputs of
Step `j`. That a Tick stands in the turn of the Step after it is the model's choice (log 3). -/
def Obligations.ReferenceScheduleTurn : Prop :=
  ∀ (k n : Nat) (sample : Nat → Sample) (j : Nat), 0 < k → j < n →
    ∃ turn, (referenceSchedule k n sample)[j]? = some turn ∧ turn.sample = sample j ∧
      (turn.ticks = 1 ∨ turn.ticks = 0) ∧ (turn.ticks = 1 ↔ ∃ m, 0 < m ∧ j = m * k)

/-! ## Fairness (60_exceptions.md R221, R222, which carry the spec's own decision D17) -/

/-- Which interleavings are admissible (R221, decision D17): turns give an admissible interleaving exactly when their Ticks
never cease (that turns are what `step` runs is the model's choice, log 3), and the reference schedule (R222) is admissible, with
STEPS_PER_TICK Steps, no more and no fewer, between two Ticks. -/
def Obligations.AdmissibleInterleavings : Prop :=
  (∀ turns : Nat → Turn, Admissible (interleavingOf turns) ↔ FairTurns turns) ∧
  ∀ (k : Nat) (sample : Nat → Sample), 0 < k →
    Admissible (referenceInterleaving k sample) ∧
    AtMostStepsPerTick k (referenceInterleaving k sample) ∧ AtLeastStepsPerTick k (referenceInterleaving k sample)

/-- What fairness gives (R221, R220, decision D17): in every run under an admissible interleaving in which no fault halts the
core, a timer that no Step writes any more comes down to 0 and stays there. In a run of `n` steps (the model's turns, log 3) it
is down by the Ticks of their turns, never below 0. -/
def Obligations.FairRunsDrainTheTimers : Prop :=
  (∀ (e : Interleaving) (states : Nat → State),
    Admissible e → Follows e states → (∀ n, (states n).fault = none) →
    ((∀ n inp x, e n = .step inp → ¬ Executes (states n) (.ldDelay x)) → ∃ m, ∀ n, m ≤ n → (states n).dt = 0) ∧
    ((∀ n inp x, e n = .step inp → ¬ Executes (states n) (.ldSound x)) → ∃ m, ∀ n, m ≤ n → (states n).st = 0)) ∧
  ∀ (states : Nat → State) (n : Nat),
    (∀ j, j < n → step (states j) = .next (states (j + 1)) ∧ (states j).fault = none) →
    ((∀ j x, j < n → ¬ Executes (states j) (.ldDelay x)) →
      DecayedBy ((List.range n).map (fun j => (states j).nextTurn.ticks)).sum (states 0).dt (states n).dt) ∧
    ((∀ j x, j < n → ¬ Executes (states j) (.ldSound x)) →
      DecayedBy ((List.range n).map (fun j => (states j).nextTurn.ticks)).sum (states 0).st (states n).st)
end

