-- ==== Sys2Proof/Laws/Decode.lean ====
section
/-! SUPPORT. The fields of a packed word are the operands it was packed from, and a word is the packing of its fields
(30_encoding.md R82, R83). Every proof goes through the word as a number. -/

namespace Sys2Proof

theorem regOf_regBits (x : Reg) : regOf (regBits x) = x := by
  revert x; decide

theorem regBits_regOf (b : BitVec 4) : regBits (regOf b) = b := by
  revert b; decide

@[simp] theorem regBits_toNat (x : Reg) : (regBits x).toNat = x.val := by
  revert x; decide

@[simp] theorem regOf_val (b : BitVec 4) : (regOf b).val = b.toNat := rfl

/-- The number of an appended bit vector. -/
theorem append_toNat {m n : Nat} (a : BitVec m) (b : BitVec n) : (a ++ b).toNat = 2 ^ n * a.toNat + b.toNat := by
  rw [BitVec.toNat_append, Nat.shiftLeft_eq, Nat.mul_comm, Nat.two_pow_add_eq_or_of_lt b.isLt]

/-! ## Packed words and fields as numbers -/

theorem packNNN_toNat (f : BitVec 4) (nnn : BitVec 12) : (packNNN f nnn).toNat = 4096 * f.toNat + nnn.toNat :=
  append_toNat f nnn

theorem packXKK_toNat (f : BitVec 4) (x : Reg) (kk : Byte) :
    (packXKK f x kk).toNat = 4096 * f.toNat + 256 * x.val + kk.toNat := by
  have h : (regBits x ++ kk : BitVec 12).toNat = 2 ^ 8 * (regBits x).toNat + kk.toNat := append_toNat (regBits x) kk
  rw [packXKK, packNNN_toNat, h, regBits_toNat]
  omega

theorem packXYN_toNat (f : BitVec 4) (x y : Reg) (n : BitVec 4) :
    (packXYN f x y n).toNat = 4096 * f.toNat + 256 * x.val + 16 * y.val + n.toNat := by
  have h : (regBits y ++ n : BitVec 8).toNat = 2 ^ 4 * (regBits y).toNat + n.toNat := append_toNat (regBits y) n
  rw [packXYN, packXKK_toNat, h, regBits_toNat]
  omega

theorem joinBytes_toNat (hi lo : Byte) : (joinBytes hi lo).toNat = 256 * hi.toNat + lo.toNat :=
  append_toNat hi lo

theorem extract_toNat {w : Nat} (a : BitVec w) (lo n : Nat) :
    (a.extractLsb' lo n).toNat = a.toNat / 2 ^ lo % 2 ^ n := by
  rw [BitVec.extractLsb'_toNat, Nat.shiftRight_eq_div_pow]

theorem fieldFamily_toNat (w : Word) : (fieldFamily w).toNat = w.toNat / 4096 := by
  have := w.isLt
  rw [fieldFamily, extract_toNat]
  omega

theorem fieldX_val (w : Word) : (fieldX w).val = w.toNat / 256 % 16 := extract_toNat w 8 4

theorem fieldY_val (w : Word) : (fieldY w).val = w.toNat / 16 % 16 := extract_toNat w 4 4

theorem fieldN_toNat (w : Word) : (fieldN w).toNat = w.toNat % 16 := by
  rw [fieldN, extract_toNat]
  omega

theorem fieldKK_toNat (w : Word) : (fieldKK w).toNat = w.toNat % 256 := by
  rw [fieldKK, extract_toNat]
  omega

theorem fieldNNN_toNat (w : Word) : (fieldNNN w).toNat = w.toNat % 4096 := by
  rw [fieldNNN, extract_toNat]
  omega

theorem hiByte_toNat (w : Word) : (hiByte w).toNat = w.toNat / 256 := by
  have := w.isLt
  rw [hiByte, extract_toNat]
  omega

theorem loByte_toNat (w : Word) : (loByte w).toNat = w.toNat % 256 := by
  rw [loByte, extract_toNat]
  omega

/-! ## Bytes and words -/

@[simp] theorem joinBytes_hi_lo (w : Word) : joinBytes (hiByte w) (loByte w) = w := by
  apply BitVec.eq_of_toNat_eq
  rw [joinBytes_toNat, hiByte_toNat, loByte_toNat]
  omega

@[simp] theorem hiByte_joinBytes (hi lo : Byte) : hiByte (joinBytes hi lo) = hi := by
  apply BitVec.eq_of_toNat_eq
  rw [hiByte_toNat, joinBytes_toNat]
  omega

@[simp] theorem loByte_joinBytes (hi lo : Byte) : loByte (joinBytes hi lo) = lo := by
  apply BitVec.eq_of_toNat_eq
  rw [loByte_toNat, joinBytes_toNat]
  omega

/-! ## The fields of a packed word -/

@[simp] theorem fieldFamily_packNNN (f : BitVec 4) (nnn : BitVec 12) : fieldFamily (packNNN f nnn) = f := by
  apply BitVec.eq_of_toNat_eq
  rw [fieldFamily_toNat, packNNN_toNat]
  omega

@[simp] theorem fieldNNN_packNNN (f : BitVec 4) (nnn : BitVec 12) : fieldNNN (packNNN f nnn) = nnn := by
  apply BitVec.eq_of_toNat_eq
  rw [fieldNNN_toNat, packNNN_toNat]
  omega

@[simp] theorem fieldFamily_packXKK (f : BitVec 4) (x : Reg) (kk : Byte) : fieldFamily (packXKK f x kk) = f :=
  fieldFamily_packNNN f _

@[simp] theorem fieldKK_packXKK (f : BitVec 4) (x : Reg) (kk : Byte) : fieldKK (packXKK f x kk) = kk := by
  apply BitVec.eq_of_toNat_eq
  rw [fieldKK_toNat, packXKK_toNat]
  omega

@[simp] theorem fieldX_packXKK (f : BitVec 4) (x : Reg) (kk : Byte) : fieldX (packXKK f x kk) = x := by
  apply Fin.eq_of_val_eq
  rw [fieldX_val, packXKK_toNat]
  omega

@[simp] theorem fieldFamily_packXYN (f : BitVec 4) (x y : Reg) (n : BitVec 4) : fieldFamily (packXYN f x y n) = f :=
  fieldFamily_packNNN f _

@[simp] theorem fieldX_packXYN (f : BitVec 4) (x y : Reg) (n : BitVec 4) : fieldX (packXYN f x y n) = x :=
  fieldX_packXKK f x _

@[simp] theorem fieldY_packXYN (f : BitVec 4) (x y : Reg) (n : BitVec 4) : fieldY (packXYN f x y n) = y := by
  apply Fin.eq_of_val_eq
  rw [fieldY_val, packXYN_toNat]
  omega

@[simp] theorem fieldN_packXYN (f : BitVec 4) (x y : Reg) (n : BitVec 4) : fieldN (packXYN f x y n) = n := by
  apply BitVec.eq_of_toNat_eq
  rw [fieldN_toNat, packXYN_toNat]
  omega

/-! ## A word is the packing of its fields -/

theorem packNNN_fields (w : Word) : packNNN (fieldFamily w) (fieldNNN w) = w := by
  apply BitVec.eq_of_toNat_eq
  rw [packNNN_toNat, fieldFamily_toNat, fieldNNN_toNat]
  omega

theorem packXKK_fields (w : Word) : packXKK (fieldFamily w) (fieldX w) (fieldKK w) = w := by
  apply BitVec.eq_of_toNat_eq
  rw [packXKK_toNat, fieldFamily_toNat, fieldX_val, fieldKK_toNat]
  omega

theorem packXYN_fields (w : Word) : packXYN (fieldFamily w) (fieldX w) (fieldY w) (fieldN w) = w := by
  apply BitVec.eq_of_toNat_eq
  rw [packXYN_toNat, fieldFamily_toNat, fieldX_val, fieldY_val, fieldN_toNat]
  omega

end Sys2Proof
end

