-- ==== Sys2Proof/Laws/Memory.lean ====
section
/-! SUPPORT. The laws of memory: read after write, canonical form, multi-byte accesses (20_memory.md R63, R65, R73). -/

namespace Sys2Proof.Machine

/-! ## One byte -/

theorem Memory.read_of_lt_all {m : Memory} {a : Nat} (h : ∀ c ∈ m, a < c.1) : m.read a = Memory.blank a := by
  induction m with
  | nil => rfl
  | cons c m ih =>
    obtain ⟨c, d⟩ := c
    have hc : a < c := h _ List.mem_cons_self
    simp only [Memory.read, if_neg (Nat.ne_of_gt hc)]
    exact ih fun e he => h e (List.mem_cons_of_mem _ he)

/-- Reading after an insertion into a sorted memory. -/
theorem Memory.read_insert {m : Memory} (hm : m.Pairwise (fun c d => c.1 < d.1)) (a : Nat) (b : Byte) (x : Nat) :
    (Memory.insert a b m).read x = if x = a then b else m.read x := by
  induction m with
  | nil =>
    by_cases hb : b = Memory.blank a
    · by_cases hx : x = a <;> simp [Memory.insert, Memory.read, hb, hx]
    · simp only [Memory.insert, if_neg hb, Memory.read, eq_comm (a := a)]
  | cons c m ih =>
    obtain ⟨c, d⟩ := c
    have htail := (List.pairwise_cons.1 hm).1
    have hsorted := (List.pairwise_cons.1 hm).2
    by_cases h1 : a < c
    · have hblank : Memory.read ((c, d) :: m) a = Memory.blank a :=
        Memory.read_of_lt_all (by
          intro e he
          rcases List.mem_cons.1 he with rfl | he
          · exact h1
          · exact Nat.lt_trans h1 (htail e he))
      by_cases hb : b = Memory.blank a
      · simp only [Memory.insert, if_pos h1, if_pos hb]
        by_cases hx : x = a
        · rw [if_pos hx, hx, hblank, hb]
        · rw [if_neg hx]
      · simp only [Memory.insert, if_pos h1, if_neg hb, Memory.read, eq_comm (a := a)]
    · by_cases h2 : a = c
      · subst h2
        have hrest : Memory.read m a = Memory.blank a := Memory.read_of_lt_all htail
        have hlhs : Memory.insert a b ((a, d) :: m) = if b = Memory.blank a then m else (a, b) :: m := by
          simp only [Memory.insert, if_neg h1, if_true]
        rw [hlhs]
        by_cases hx : x = a
        · subst hx
          by_cases hb : b = Memory.blank x
          · simp [hb, hrest]
          · simp [hb, Memory.read]
        · by_cases hb : b = Memory.blank a
          · simp [hb, Memory.read, hx, Ne.symm hx]
          · simp [hb, Memory.read, hx, Ne.symm hx]
      · simp only [Memory.insert, if_neg h1, if_neg h2, Memory.read, ih hsorted]
        by_cases hx : c = x
        · subst hx
          rw [if_pos rfl, if_pos rfl, if_neg (Ne.symm h2)]
        · rw [if_neg hx, if_neg hx]

theorem Memory.mem_insert {m : Memory} {a : Nat} {b : Byte} {e : Host.Cell} (he : e ∈ Memory.insert a b m) :
    (e = (a, b) ∧ b ≠ Memory.blank a) ∨ e ∈ m := by
  induction m with
  | nil =>
    by_cases hb : b = Memory.blank a <;> simp_all [Memory.insert]
  | cons c m ih =>
    obtain ⟨c, d⟩ := c
    simp only [Memory.insert] at he
    split at he
    · split at he
      · exact .inr he
      · rcases List.mem_cons.1 he with rfl | he
        · exact .inl ⟨rfl, ‹_›⟩
        · exact .inr he
    · split at he
      · split at he
        · exact .inr (List.mem_cons_of_mem _ he)
        · rcases List.mem_cons.1 he with rfl | he
          · exact .inl ⟨rfl, ‹_›⟩
          · exact .inr (List.mem_cons_of_mem _ he)
      · rcases List.mem_cons.1 he with rfl | he
        · exact .inr List.mem_cons_self
        · exact (ih he).imp id (List.mem_cons_of_mem _)

theorem Memory.sorted_insert {m : Memory} (hm : m.Pairwise (fun c d => c.1 < d.1)) (a : Nat) (b : Byte) :
    (Memory.insert a b m).Pairwise (fun c d => c.1 < d.1) := by
  induction m with
  | nil => by_cases hb : b = Memory.blank a <;> simp [Memory.insert, hb]
  | cons c m ih =>
    obtain ⟨c, d⟩ := c
    obtain ⟨htail, hsorted⟩ := List.pairwise_cons.1 hm
    simp only [Memory.insert]
    split
    · split
      · exact hm
      · refine List.pairwise_cons.2 ⟨fun e he => ?_, hm⟩
        rcases List.mem_cons.1 he with rfl | he
        · assumption
        · exact Nat.lt_trans ‹_› (htail e he)
    · split
      · rename_i h2
        subst h2
        split
        · exact hsorted
        · exact List.pairwise_cons.2 ⟨htail, hsorted⟩
      · refine List.pairwise_cons.2 ⟨fun e he => ?_, ih hsorted⟩
        rcases Memory.mem_insert he with ⟨rfl, -⟩ | he
        · simp only; omega
        · exact htail e he

/-- Every write keeps the canonical form. -/
theorem Memory.write_wf {m : Memory} (hm : m.wf) (a : Nat) (b : Byte) : (m.write a b).wf := by
  unfold Memory.write
  split
  · refine ⟨Memory.sorted_insert hm.1 a b, fun e he => ?_⟩
    rcases Memory.mem_insert he with ⟨rfl, hb⟩ | he
    · exact ⟨‹_›, hb⟩
    · exact hm.2 e he
  · exact hm

theorem Memory.read_write {m : Memory} (hm : m.wf) {a : Nat} (ha : a < Config.memSize) (b : Byte) (x : Nat) :
    (m.write a b).read x = if x = a then b else m.read x := by
  simp only [Memory.write, if_pos ha, Memory.read_insert hm.1]

theorem Memory.read_write_of_ne {m : Memory} (hm : m.wf) {a x : Nat} (hx : x ≠ a) (b : Byte) :
    (m.write a b).read x = m.read x := by
  by_cases ha : a < Config.memSize
  · rw [Memory.read_write hm ha, if_neg hx]
  · simp only [Memory.write, if_neg ha]

/-- The empty list is a memory in canonical form. -/
theorem Memory.nil_wf : Memory.wf [] := ⟨.nil, fun _ h => absurd h List.not_mem_nil⟩

/-! ## Several bytes -/

theorem Memory.writeBytes_wf {m : Memory} (hm : m.wf) (a : Nat) (bs : List Byte) : (m.writeBytes a bs).wf := by
  induction bs generalizing m a with
  | nil => exact hm
  | cons b bs ih => exact ih (Memory.write_wf hm a b) (a + 1)

/-- An address outside the written bytes reads as before. -/
theorem Memory.read_writeBytes_of_outside {m : Memory} (hm : m.wf) {a x : Nat} {bs : List Byte}
    (hx : x < a ∨ a + bs.length ≤ x) : (m.writeBytes a bs).read x = m.read x := by
  induction bs generalizing m a with
  | nil => rfl
  | cons b bs ih =>
    simp only [List.length_cons] at hx
    rw [Memory.writeBytes, ih (Memory.write_wf hm a b) (by omega), Memory.read_write_of_ne hm (by omega)]

/-- The written bytes read back. -/
theorem Memory.read_writeBytes {m : Memory} (hm : m.wf) {a : Nat} {bs : List Byte} (k : Nat) (hk : k < bs.length)
    (ha : a + bs.length ≤ Config.memSize) : (m.writeBytes a bs).read (a + k) = bs[k] := by
  induction bs generalizing m a k with
  | nil => exact absurd hk (Nat.not_lt_zero _)
  | cons b bs ih =>
    simp only [List.length_cons] at hk ha
    cases k with
    | zero =>
      rw [Memory.writeBytes, Memory.read_writeBytes_of_outside (Memory.write_wf hm a b) (by omega),
        Memory.read_write hm (by omega)]
      simp
    | succ k =>
      have := ih (Memory.write_wf hm a b) (a := a + 1) k (by omega) (by omega)
      rw [Memory.writeBytes, List.getElem_cons_succ, ← this]
      congr 1
      omega

@[simp] theorem Memory.readBytes_length (m : Memory) (a n : Nat) : (m.readBytes a n).length = n := by
  induction n generalizing a with
  | zero => rfl
  | succ n ih => simp [Memory.readBytes, ih]

theorem Memory.readBytes_getElem (m : Memory) (a n k : Nat) (hk : k < (m.readBytes a n).length) :
    (m.readBytes a n)[k] = m.read (a + k) := by
  induction n generalizing a k with
  | zero => exact absurd hk (Nat.not_lt_zero _)
  | succ n ih =>
    cases k with
    | zero => rfl
    | succ k =>
      simp only [Memory.readBytes, List.getElem_cons_succ, ih]
      congr 1
      omega

/-! ## The range check (20_memory.md R63) -/

theorem checkRange_eq_none_iff (base : Word) (len : Nat) :
    checkRange base len = none ↔ (len = 0 ∨ base.toNat + len ≤ Config.memSize) := by
  unfold checkRange
  split
  · rename_i h
    simp only [reduceCtorEq, Config.memSize, false_iff]
    omega
  · rename_i h
    simp only [Config.memSize, true_iff]
    omega

/-- What a failed range check reports: the lowest out-of-range address the access would touch (60_exceptions.md R213). -/
theorem checkRange_eq_some_iff (base : Word) (len : Nat) (addr : Word) :
    checkRange base len = some addr ↔
      (0 < len ∧ Config.memSize < base.toNat + len ∧ addr.toNat = max base.toNat 0x1000) := by
  have hb := base.isLt
  unfold checkRange
  split
  · rename_i h
    have hmax : (max base.toNat 0x1000) % 2 ^ 16 = max base.toNat 0x1000 := Nat.mod_eq_of_lt (by omega)
    constructor
    · intro e
      have := Option.some.inj e
      subst this
      refine ⟨h.1, by simp only [Config.memSize]; omega, ?_⟩
      rw [BitVec.toNat_ofNat, hmax]
    · rintro ⟨-, -, e⟩
      refine congrArg some (BitVec.eq_of_toNat_eq ?_)
      rw [BitVec.toNat_ofNat, hmax, e]
  · rename_i h
    simp only [reduceCtorEq, Config.memSize, false_iff]
    omega

end Sys2Proof.Machine
end

