-- ==== Sys2Proof/Laws/State.lean ====
section
/-! SUPPORT. One lemma per field per update of the state, true by rfl, so that no proof unfolds a record update. -/

namespace Sys2Proof.Machine

variable (s : State)

/-! ### setReg -/

@[simp] theorem setReg_v (r : Reg) (b : Byte) : (s.setReg r b).v = s.v.set r.val b r.isLt := rfl
@[simp] theorem setReg_index (r : Reg) (b : Byte) : (s.setReg r b).index = s.index := rfl
@[simp] theorem setReg_pc (r : Reg) (b : Byte) : (s.setReg r b).pc = s.pc := rfl
@[simp] theorem setReg_sp (r : Reg) (b : Byte) : (s.setReg r b).sp = s.sp := rfl
@[simp] theorem setReg_stack (r : Reg) (b : Byte) : (s.setReg r b).stack = s.stack := rfl
@[simp] theorem setReg_dt (r : Reg) (b : Byte) : (s.setReg r b).dt = s.dt := rfl
@[simp] theorem setReg_st (r : Reg) (b : Byte) : (s.setReg r b).st = s.st := rfl
@[simp] theorem setReg_mem (r : Reg) (b : Byte) : (s.setReg r b).mem = s.mem := rfl
@[simp] theorem setReg_fb (r : Reg) (b : Byte) : (s.setReg r b).fb = s.fb := rfl
@[simp] theorem setReg_wait (r : Reg) (b : Byte) : (s.setReg r b).wait = s.wait := rfl
@[simp] theorem setReg_fault (r : Reg) (b : Byte) : (s.setReg r b).fault = s.fault := rfl
@[simp] theorem setReg_fbChanged (r : Reg) (b : Byte) : (s.setReg r b).fbChanged = s.fbChanged := rfl
@[simp] theorem setReg_params (r : Reg) (b : Byte) : (s.setReg r b).params = s.params := rfl
@[simp] theorem setReg_now (r : Reg) (b : Byte) : (s.setReg r b).now = s.now := rfl
@[simp] theorem setReg_inputs (r : Reg) (b : Byte) : (s.setReg r b).inputs = s.inputs := rfl
@[simp] theorem setReg_clock (r : Reg) (b : Byte) : (s.setReg r b).clock = s.clock := rfl
@[simp] theorem setReg_stackAt (r : Reg) (b : Byte) (j : Nat) : (s.setReg r b).stackAt j = s.stackAt j := rfl

/-! ### setRegs -/

@[simp] theorem setRegs_v (v : Vector Byte 16) : (s.setRegs v).v = v := rfl
@[simp] theorem setRegs_index (v : Vector Byte 16) : (s.setRegs v).index = s.index := rfl
@[simp] theorem setRegs_pc (v : Vector Byte 16) : (s.setRegs v).pc = s.pc := rfl
@[simp] theorem setRegs_sp (v : Vector Byte 16) : (s.setRegs v).sp = s.sp := rfl
@[simp] theorem setRegs_stack (v : Vector Byte 16) : (s.setRegs v).stack = s.stack := rfl
@[simp] theorem setRegs_dt (v : Vector Byte 16) : (s.setRegs v).dt = s.dt := rfl
@[simp] theorem setRegs_st (v : Vector Byte 16) : (s.setRegs v).st = s.st := rfl
@[simp] theorem setRegs_mem (v : Vector Byte 16) : (s.setRegs v).mem = s.mem := rfl
@[simp] theorem setRegs_fb (v : Vector Byte 16) : (s.setRegs v).fb = s.fb := rfl
@[simp] theorem setRegs_wait (v : Vector Byte 16) : (s.setRegs v).wait = s.wait := rfl
@[simp] theorem setRegs_fault (v : Vector Byte 16) : (s.setRegs v).fault = s.fault := rfl
@[simp] theorem setRegs_fbChanged (v : Vector Byte 16) : (s.setRegs v).fbChanged = s.fbChanged := rfl
@[simp] theorem setRegs_params (v : Vector Byte 16) : (s.setRegs v).params = s.params := rfl
@[simp] theorem setRegs_now (v : Vector Byte 16) : (s.setRegs v).now = s.now := rfl
@[simp] theorem setRegs_inputs (v : Vector Byte 16) : (s.setRegs v).inputs = s.inputs := rfl
@[simp] theorem setRegs_clock (v : Vector Byte 16) : (s.setRegs v).clock = s.clock := rfl
@[simp] theorem setRegs_stackAt (v : Vector Byte 16) (j : Nat) : (s.setRegs v).stackAt j = s.stackAt j := rfl

/-! ### setIndex -/

@[simp] theorem setIndex_v (a : Word) : (s.setIndex a).v = s.v := rfl
@[simp] theorem setIndex_index (a : Word) : (s.setIndex a).index = a := rfl
@[simp] theorem setIndex_pc (a : Word) : (s.setIndex a).pc = s.pc := rfl
@[simp] theorem setIndex_sp (a : Word) : (s.setIndex a).sp = s.sp := rfl
@[simp] theorem setIndex_stack (a : Word) : (s.setIndex a).stack = s.stack := rfl
@[simp] theorem setIndex_dt (a : Word) : (s.setIndex a).dt = s.dt := rfl
@[simp] theorem setIndex_st (a : Word) : (s.setIndex a).st = s.st := rfl
@[simp] theorem setIndex_mem (a : Word) : (s.setIndex a).mem = s.mem := rfl
@[simp] theorem setIndex_fb (a : Word) : (s.setIndex a).fb = s.fb := rfl
@[simp] theorem setIndex_wait (a : Word) : (s.setIndex a).wait = s.wait := rfl
@[simp] theorem setIndex_fault (a : Word) : (s.setIndex a).fault = s.fault := rfl
@[simp] theorem setIndex_fbChanged (a : Word) : (s.setIndex a).fbChanged = s.fbChanged := rfl
@[simp] theorem setIndex_params (a : Word) : (s.setIndex a).params = s.params := rfl
@[simp] theorem setIndex_now (a : Word) : (s.setIndex a).now = s.now := rfl
@[simp] theorem setIndex_inputs (a : Word) : (s.setIndex a).inputs = s.inputs := rfl
@[simp] theorem setIndex_clock (a : Word) : (s.setIndex a).clock = s.clock := rfl
@[simp] theorem setIndex_reg (a : Word) (q : Reg) : (s.setIndex a).reg q = s.reg q := rfl
@[simp] theorem setIndex_stackAt (a : Word) (j : Nat) : (s.setIndex a).stackAt j = s.stackAt j := rfl

/-! ### setPc -/

@[simp] theorem setPc_v (a : Word) : (s.setPc a).v = s.v := rfl
@[simp] theorem setPc_index (a : Word) : (s.setPc a).index = s.index := rfl
@[simp] theorem setPc_pc (a : Word) : (s.setPc a).pc = a := rfl
@[simp] theorem setPc_sp (a : Word) : (s.setPc a).sp = s.sp := rfl
@[simp] theorem setPc_stack (a : Word) : (s.setPc a).stack = s.stack := rfl
@[simp] theorem setPc_dt (a : Word) : (s.setPc a).dt = s.dt := rfl
@[simp] theorem setPc_st (a : Word) : (s.setPc a).st = s.st := rfl
@[simp] theorem setPc_mem (a : Word) : (s.setPc a).mem = s.mem := rfl
@[simp] theorem setPc_fb (a : Word) : (s.setPc a).fb = s.fb := rfl
@[simp] theorem setPc_wait (a : Word) : (s.setPc a).wait = s.wait := rfl
@[simp] theorem setPc_fault (a : Word) : (s.setPc a).fault = s.fault := rfl
@[simp] theorem setPc_fbChanged (a : Word) : (s.setPc a).fbChanged = s.fbChanged := rfl
@[simp] theorem setPc_params (a : Word) : (s.setPc a).params = s.params := rfl
@[simp] theorem setPc_now (a : Word) : (s.setPc a).now = s.now := rfl
@[simp] theorem setPc_inputs (a : Word) : (s.setPc a).inputs = s.inputs := rfl
@[simp] theorem setPc_clock (a : Word) : (s.setPc a).clock = s.clock := rfl
@[simp] theorem setPc_reg (a : Word) (q : Reg) : (s.setPc a).reg q = s.reg q := rfl
@[simp] theorem setPc_stackAt (a : Word) (j : Nat) : (s.setPc a).stackAt j = s.stackAt j := rfl

/-! ### advance -/

@[simp] theorem advance_v (n : Nat) : (s.advance n).v = s.v := rfl
@[simp] theorem advance_index (n : Nat) : (s.advance n).index = s.index := rfl
@[simp] theorem advance_pc (n : Nat) : (s.advance n).pc = s.pc + BitVec.ofNat 16 n := rfl
@[simp] theorem advance_sp (n : Nat) : (s.advance n).sp = s.sp := rfl
@[simp] theorem advance_stack (n : Nat) : (s.advance n).stack = s.stack := rfl
@[simp] theorem advance_dt (n : Nat) : (s.advance n).dt = s.dt := rfl
@[simp] theorem advance_st (n : Nat) : (s.advance n).st = s.st := rfl
@[simp] theorem advance_mem (n : Nat) : (s.advance n).mem = s.mem := rfl
@[simp] theorem advance_fb (n : Nat) : (s.advance n).fb = s.fb := rfl
@[simp] theorem advance_wait (n : Nat) : (s.advance n).wait = s.wait := rfl
@[simp] theorem advance_fault (n : Nat) : (s.advance n).fault = s.fault := rfl
@[simp] theorem advance_fbChanged (n : Nat) : (s.advance n).fbChanged = s.fbChanged := rfl
@[simp] theorem advance_params (n : Nat) : (s.advance n).params = s.params := rfl
@[simp] theorem advance_now (n : Nat) : (s.advance n).now = s.now := rfl
@[simp] theorem advance_inputs (n : Nat) : (s.advance n).inputs = s.inputs := rfl
@[simp] theorem advance_clock (n : Nat) : (s.advance n).clock = s.clock := rfl
@[simp] theorem advance_reg (n : Nat) (q : Reg) : (s.advance n).reg q = s.reg q := rfl
@[simp] theorem advance_stackAt (n : Nat) (j : Nat) : (s.advance n).stackAt j = s.stackAt j := rfl

/-! ### setDt -/

@[simp] theorem setDt_v (b : Byte) : (s.setDt b).v = s.v := rfl
@[simp] theorem setDt_index (b : Byte) : (s.setDt b).index = s.index := rfl
@[simp] theorem setDt_pc (b : Byte) : (s.setDt b).pc = s.pc := rfl
@[simp] theorem setDt_sp (b : Byte) : (s.setDt b).sp = s.sp := rfl
@[simp] theorem setDt_stack (b : Byte) : (s.setDt b).stack = s.stack := rfl
@[simp] theorem setDt_dt (b : Byte) : (s.setDt b).dt = b := rfl
@[simp] theorem setDt_st (b : Byte) : (s.setDt b).st = s.st := rfl
@[simp] theorem setDt_mem (b : Byte) : (s.setDt b).mem = s.mem := rfl
@[simp] theorem setDt_fb (b : Byte) : (s.setDt b).fb = s.fb := rfl
@[simp] theorem setDt_wait (b : Byte) : (s.setDt b).wait = s.wait := rfl
@[simp] theorem setDt_fault (b : Byte) : (s.setDt b).fault = s.fault := rfl
@[simp] theorem setDt_fbChanged (b : Byte) : (s.setDt b).fbChanged = s.fbChanged := rfl
@[simp] theorem setDt_params (b : Byte) : (s.setDt b).params = s.params := rfl
@[simp] theorem setDt_now (b : Byte) : (s.setDt b).now = s.now := rfl
@[simp] theorem setDt_inputs (b : Byte) : (s.setDt b).inputs = s.inputs := rfl
@[simp] theorem setDt_clock (b : Byte) : (s.setDt b).clock = s.clock := rfl
@[simp] theorem setDt_reg (b : Byte) (q : Reg) : (s.setDt b).reg q = s.reg q := rfl
@[simp] theorem setDt_stackAt (b : Byte) (j : Nat) : (s.setDt b).stackAt j = s.stackAt j := rfl

/-! ### setSt -/

@[simp] theorem setSt_v (b : Byte) : (s.setSt b).v = s.v := rfl
@[simp] theorem setSt_index (b : Byte) : (s.setSt b).index = s.index := rfl
@[simp] theorem setSt_pc (b : Byte) : (s.setSt b).pc = s.pc := rfl
@[simp] theorem setSt_sp (b : Byte) : (s.setSt b).sp = s.sp := rfl
@[simp] theorem setSt_stack (b : Byte) : (s.setSt b).stack = s.stack := rfl
@[simp] theorem setSt_dt (b : Byte) : (s.setSt b).dt = s.dt := rfl
@[simp] theorem setSt_st (b : Byte) : (s.setSt b).st = b := rfl
@[simp] theorem setSt_mem (b : Byte) : (s.setSt b).mem = s.mem := rfl
@[simp] theorem setSt_fb (b : Byte) : (s.setSt b).fb = s.fb := rfl
@[simp] theorem setSt_wait (b : Byte) : (s.setSt b).wait = s.wait := rfl
@[simp] theorem setSt_fault (b : Byte) : (s.setSt b).fault = s.fault := rfl
@[simp] theorem setSt_fbChanged (b : Byte) : (s.setSt b).fbChanged = s.fbChanged := rfl
@[simp] theorem setSt_params (b : Byte) : (s.setSt b).params = s.params := rfl
@[simp] theorem setSt_now (b : Byte) : (s.setSt b).now = s.now := rfl
@[simp] theorem setSt_inputs (b : Byte) : (s.setSt b).inputs = s.inputs := rfl
@[simp] theorem setSt_clock (b : Byte) : (s.setSt b).clock = s.clock := rfl
@[simp] theorem setSt_reg (b : Byte) (q : Reg) : (s.setSt b).reg q = s.reg q := rfl
@[simp] theorem setSt_stackAt (b : Byte) (j : Nat) : (s.setSt b).stackAt j = s.stackAt j := rfl

/-! ### setMem -/

@[simp] theorem setMem_v (m : Memory) : (s.setMem m).v = s.v := rfl
@[simp] theorem setMem_index (m : Memory) : (s.setMem m).index = s.index := rfl
@[simp] theorem setMem_pc (m : Memory) : (s.setMem m).pc = s.pc := rfl
@[simp] theorem setMem_sp (m : Memory) : (s.setMem m).sp = s.sp := rfl
@[simp] theorem setMem_stack (m : Memory) : (s.setMem m).stack = s.stack := rfl
@[simp] theorem setMem_dt (m : Memory) : (s.setMem m).dt = s.dt := rfl
@[simp] theorem setMem_st (m : Memory) : (s.setMem m).st = s.st := rfl
@[simp] theorem setMem_mem (m : Memory) : (s.setMem m).mem = m := rfl
@[simp] theorem setMem_fb (m : Memory) : (s.setMem m).fb = s.fb := rfl
@[simp] theorem setMem_wait (m : Memory) : (s.setMem m).wait = s.wait := rfl
@[simp] theorem setMem_fault (m : Memory) : (s.setMem m).fault = s.fault := rfl
@[simp] theorem setMem_fbChanged (m : Memory) : (s.setMem m).fbChanged = s.fbChanged := rfl
@[simp] theorem setMem_params (m : Memory) : (s.setMem m).params = s.params := rfl
@[simp] theorem setMem_now (m : Memory) : (s.setMem m).now = s.now := rfl
@[simp] theorem setMem_inputs (m : Memory) : (s.setMem m).inputs = s.inputs := rfl
@[simp] theorem setMem_clock (m : Memory) : (s.setMem m).clock = s.clock := rfl
@[simp] theorem setMem_reg (m : Memory) (q : Reg) : (s.setMem m).reg q = s.reg q := rfl
@[simp] theorem setMem_stackAt (m : Memory) (j : Nat) : (s.setMem m).stackAt j = s.stackAt j := rfl

/-! ### setWait -/

@[simp] theorem setWait_v (w : Option Reg) : (s.setWait w).v = s.v := rfl
@[simp] theorem setWait_index (w : Option Reg) : (s.setWait w).index = s.index := rfl
@[simp] theorem setWait_pc (w : Option Reg) : (s.setWait w).pc = s.pc := rfl
@[simp] theorem setWait_sp (w : Option Reg) : (s.setWait w).sp = s.sp := rfl
@[simp] theorem setWait_stack (w : Option Reg) : (s.setWait w).stack = s.stack := rfl
@[simp] theorem setWait_dt (w : Option Reg) : (s.setWait w).dt = s.dt := rfl
@[simp] theorem setWait_st (w : Option Reg) : (s.setWait w).st = s.st := rfl
@[simp] theorem setWait_mem (w : Option Reg) : (s.setWait w).mem = s.mem := rfl
@[simp] theorem setWait_fb (w : Option Reg) : (s.setWait w).fb = s.fb := rfl
@[simp] theorem setWait_wait (w : Option Reg) : (s.setWait w).wait = w := rfl
@[simp] theorem setWait_fault (w : Option Reg) : (s.setWait w).fault = s.fault := rfl
@[simp] theorem setWait_fbChanged (w : Option Reg) : (s.setWait w).fbChanged = s.fbChanged := rfl
@[simp] theorem setWait_params (w : Option Reg) : (s.setWait w).params = s.params := rfl
@[simp] theorem setWait_now (w : Option Reg) : (s.setWait w).now = s.now := rfl
@[simp] theorem setWait_inputs (w : Option Reg) : (s.setWait w).inputs = s.inputs := rfl
@[simp] theorem setWait_clock (w : Option Reg) : (s.setWait w).clock = s.clock := rfl
@[simp] theorem setWait_reg (w : Option Reg) (q : Reg) : (s.setWait w).reg q = s.reg q := rfl
@[simp] theorem setWait_stackAt (w : Option Reg) (j : Nat) : (s.setWait w).stackAt j = s.stackAt j := rfl

/-! ### setFb -/

@[simp] theorem setFb_v (fb : FrameBuffer) : (s.setFb fb).v = s.v := rfl
@[simp] theorem setFb_index (fb : FrameBuffer) : (s.setFb fb).index = s.index := rfl
@[simp] theorem setFb_pc (fb : FrameBuffer) : (s.setFb fb).pc = s.pc := rfl
@[simp] theorem setFb_sp (fb : FrameBuffer) : (s.setFb fb).sp = s.sp := rfl
@[simp] theorem setFb_stack (fb : FrameBuffer) : (s.setFb fb).stack = s.stack := rfl
@[simp] theorem setFb_dt (fb : FrameBuffer) : (s.setFb fb).dt = s.dt := rfl
@[simp] theorem setFb_st (fb : FrameBuffer) : (s.setFb fb).st = s.st := rfl
@[simp] theorem setFb_mem (fb : FrameBuffer) : (s.setFb fb).mem = s.mem := rfl
@[simp] theorem setFb_fb (fb : FrameBuffer) : (s.setFb fb).fb = fb := rfl
@[simp] theorem setFb_wait (fb : FrameBuffer) : (s.setFb fb).wait = s.wait := rfl
@[simp] theorem setFb_fault (fb : FrameBuffer) : (s.setFb fb).fault = s.fault := rfl
@[simp] theorem setFb_fbChanged (fb : FrameBuffer) : (s.setFb fb).fbChanged = true := rfl
@[simp] theorem setFb_params (fb : FrameBuffer) : (s.setFb fb).params = s.params := rfl
@[simp] theorem setFb_now (fb : FrameBuffer) : (s.setFb fb).now = s.now := rfl
@[simp] theorem setFb_inputs (fb : FrameBuffer) : (s.setFb fb).inputs = s.inputs := rfl
@[simp] theorem setFb_clock (fb : FrameBuffer) : (s.setFb fb).clock = s.clock := rfl
@[simp] theorem setFb_reg (fb : FrameBuffer) (q : Reg) : (s.setFb fb).reg q = s.reg q := rfl
@[simp] theorem setFb_stackAt (fb : FrameBuffer) (j : Nat) : (s.setFb fb).stackAt j = s.stackAt j := rfl

/-! ### push -/

@[simp] theorem push_v (a : Word) : (s.push a).v = s.v := rfl
@[simp] theorem push_index (a : Word) : (s.push a).index = s.index := rfl
@[simp] theorem push_pc (a : Word) : (s.push a).pc = s.pc := rfl
@[simp] theorem push_sp (a : Word) : (s.push a).sp = s.sp + 1 := rfl
@[simp] theorem push_stack (a : Word) : (s.push a).stack = s.stack.setIfInBounds s.sp.toNat a := rfl
@[simp] theorem push_dt (a : Word) : (s.push a).dt = s.dt := rfl
@[simp] theorem push_st (a : Word) : (s.push a).st = s.st := rfl
@[simp] theorem push_mem (a : Word) : (s.push a).mem = s.mem := rfl
@[simp] theorem push_fb (a : Word) : (s.push a).fb = s.fb := rfl
@[simp] theorem push_wait (a : Word) : (s.push a).wait = s.wait := rfl
@[simp] theorem push_fault (a : Word) : (s.push a).fault = s.fault := rfl
@[simp] theorem push_fbChanged (a : Word) : (s.push a).fbChanged = s.fbChanged := rfl
@[simp] theorem push_params (a : Word) : (s.push a).params = s.params := rfl
@[simp] theorem push_now (a : Word) : (s.push a).now = s.now := rfl
@[simp] theorem push_inputs (a : Word) : (s.push a).inputs = s.inputs := rfl
@[simp] theorem push_clock (a : Word) : (s.push a).clock = s.clock := rfl
@[simp] theorem push_reg (a : Word) (q : Reg) : (s.push a).reg q = s.reg q := rfl

/-! ### pop -/

@[simp] theorem pop_v : (s.pop).v = s.v := rfl
@[simp] theorem pop_index : (s.pop).index = s.index := rfl
@[simp] theorem pop_pc : (s.pop).pc = s.pc := rfl
@[simp] theorem pop_sp : (s.pop).sp = s.sp - 1 := rfl
@[simp] theorem pop_stack : (s.pop).stack = s.stack := rfl
@[simp] theorem pop_dt : (s.pop).dt = s.dt := rfl
@[simp] theorem pop_st : (s.pop).st = s.st := rfl
@[simp] theorem pop_mem : (s.pop).mem = s.mem := rfl
@[simp] theorem pop_fb : (s.pop).fb = s.fb := rfl
@[simp] theorem pop_wait : (s.pop).wait = s.wait := rfl
@[simp] theorem pop_fault : (s.pop).fault = s.fault := rfl
@[simp] theorem pop_fbChanged : (s.pop).fbChanged = s.fbChanged := rfl
@[simp] theorem pop_params : (s.pop).params = s.params := rfl
@[simp] theorem pop_now : (s.pop).now = s.now := rfl
@[simp] theorem pop_inputs : (s.pop).inputs = s.inputs := rfl
@[simp] theorem pop_clock : (s.pop).clock = s.clock := rfl
@[simp] theorem pop_reg (q : Reg) : (s.pop).reg q = s.reg q := rfl
@[simp] theorem pop_stackAt (j : Nat) : (s.pop).stackAt j = s.stackAt j := rfl

/-! ### raiseFault -/

@[simp] theorem raiseFault_v (c : Cause) (op addr : Option Word) : (raiseFault c op addr s).v = s.v := rfl
@[simp] theorem raiseFault_index (c : Cause) (op addr : Option Word) : (raiseFault c op addr s).index = s.index := rfl
@[simp] theorem raiseFault_pc (c : Cause) (op addr : Option Word) : (raiseFault c op addr s).pc = s.pc := rfl
@[simp] theorem raiseFault_sp (c : Cause) (op addr : Option Word) : (raiseFault c op addr s).sp = s.sp := rfl
@[simp] theorem raiseFault_stack (c : Cause) (op addr : Option Word) : (raiseFault c op addr s).stack = s.stack := rfl
@[simp] theorem raiseFault_dt (c : Cause) (op addr : Option Word) : (raiseFault c op addr s).dt = s.dt := rfl
@[simp] theorem raiseFault_st (c : Cause) (op addr : Option Word) : (raiseFault c op addr s).st = s.st := rfl
@[simp] theorem raiseFault_mem (c : Cause) (op addr : Option Word) : (raiseFault c op addr s).mem = s.mem := rfl
@[simp] theorem raiseFault_fb (c : Cause) (op addr : Option Word) : (raiseFault c op addr s).fb = s.fb := rfl
@[simp] theorem raiseFault_wait (c : Cause) (op addr : Option Word) : (raiseFault c op addr s).wait = s.wait := rfl
@[simp] theorem raiseFault_fault (c : Cause) (op addr : Option Word) : (raiseFault c op addr s).fault = some { cause := c, pc := s.pc, opcode := op, addr := addr } := rfl
@[simp] theorem raiseFault_fbChanged (c : Cause) (op addr : Option Word) : (raiseFault c op addr s).fbChanged = false := rfl
@[simp] theorem raiseFault_params (c : Cause) (op addr : Option Word) : (raiseFault c op addr s).params = s.params := rfl
@[simp] theorem raiseFault_now (c : Cause) (op addr : Option Word) : (raiseFault c op addr s).now = s.now := rfl
@[simp] theorem raiseFault_inputs (c : Cause) (op addr : Option Word) : (raiseFault c op addr s).inputs = s.inputs := rfl
@[simp] theorem raiseFault_clock (c : Cause) (op addr : Option Word) : (raiseFault c op addr s).clock = s.clock := rfl
@[simp] theorem raiseFault_reg (c : Cause) (op addr : Option Word) (q : Reg) : (raiseFault c op addr s).reg q = s.reg q := rfl
@[simp] theorem raiseFault_stackAt (c : Cause) (op addr : Option Word) (j : Nat) : (raiseFault c op addr s).stackAt j = s.stackAt j := rfl

/-! ### latch -/

@[simp] theorem latch_v (inp : Sample) : (latch inp s).v = s.v := rfl
@[simp] theorem latch_index (inp : Sample) : (latch inp s).index = s.index := rfl
@[simp] theorem latch_pc (inp : Sample) : (latch inp s).pc = s.pc := rfl
@[simp] theorem latch_sp (inp : Sample) : (latch inp s).sp = s.sp := rfl
@[simp] theorem latch_stack (inp : Sample) : (latch inp s).stack = s.stack := rfl
@[simp] theorem latch_dt (inp : Sample) : (latch inp s).dt = s.dt := rfl
@[simp] theorem latch_st (inp : Sample) : (latch inp s).st = s.st := rfl
@[simp] theorem latch_mem (inp : Sample) : (latch inp s).mem = s.mem := rfl
@[simp] theorem latch_fb (inp : Sample) : (latch inp s).fb = s.fb := rfl
@[simp] theorem latch_wait (inp : Sample) : (latch inp s).wait = s.wait := rfl
@[simp] theorem latch_fault (inp : Sample) : (latch inp s).fault = s.fault := rfl
@[simp] theorem latch_fbChanged (inp : Sample) : (latch inp s).fbChanged = false := rfl
@[simp] theorem latch_params (inp : Sample) : (latch inp s).params = s.params := rfl
@[simp] theorem latch_now (inp : Sample) : (latch inp s).now = inp := rfl
@[simp] theorem latch_inputs (inp : Sample) : (latch inp s).inputs = s.inputs := rfl
@[simp] theorem latch_clock (inp : Sample) : (latch inp s).clock = s.clock := rfl
@[simp] theorem latch_reg (inp : Sample) (q : Reg) : (latch inp s).reg q = s.reg q := rfl
@[simp] theorem latch_stackAt (inp : Sample) (j : Nat) : (latch inp s).stackAt j = s.stackAt j := rfl

/-! ### consumeTurn -/

@[simp] theorem consumeTurn_v : (s.consumeTurn).v = s.v := rfl
@[simp] theorem consumeTurn_index : (s.consumeTurn).index = s.index := rfl
@[simp] theorem consumeTurn_pc : (s.consumeTurn).pc = s.pc := rfl
@[simp] theorem consumeTurn_sp : (s.consumeTurn).sp = s.sp := rfl
@[simp] theorem consumeTurn_stack : (s.consumeTurn).stack = s.stack := rfl
@[simp] theorem consumeTurn_dt : (s.consumeTurn).dt = s.dt := rfl
@[simp] theorem consumeTurn_st : (s.consumeTurn).st = s.st := rfl
@[simp] theorem consumeTurn_mem : (s.consumeTurn).mem = s.mem := rfl
@[simp] theorem consumeTurn_fb : (s.consumeTurn).fb = s.fb := rfl
@[simp] theorem consumeTurn_wait : (s.consumeTurn).wait = s.wait := rfl
@[simp] theorem consumeTurn_fault : (s.consumeTurn).fault = s.fault := rfl
@[simp] theorem consumeTurn_fbChanged : (s.consumeTurn).fbChanged = s.fbChanged := rfl
@[simp] theorem consumeTurn_params : (s.consumeTurn).params = s.params := rfl
@[simp] theorem consumeTurn_now : (s.consumeTurn).now = s.now := rfl
@[simp] theorem consumeTurn_inputs : (s.consumeTurn).inputs = s.inputs.tail := rfl
@[simp] theorem consumeTurn_clock : (s.consumeTurn).clock = s.clock + 1 := rfl
@[simp] theorem consumeTurn_reg (q : Reg) : (s.consumeTurn).reg q = s.reg q := rfl
@[simp] theorem consumeTurn_stackAt (j : Nat) : (s.consumeTurn).stackAt j = s.stackAt j := rfl

/-! ### ticks -/

@[simp] theorem ticks_v (n : Nat) : (ticks n s).v = s.v := rfl
@[simp] theorem ticks_index (n : Nat) : (ticks n s).index = s.index := rfl
@[simp] theorem ticks_pc (n : Nat) : (ticks n s).pc = s.pc := rfl
@[simp] theorem ticks_sp (n : Nat) : (ticks n s).sp = s.sp := rfl
@[simp] theorem ticks_stack (n : Nat) : (ticks n s).stack = s.stack := rfl
@[simp] theorem ticks_dt (n : Nat) : (ticks n s).dt = if s.fault.isSome then s.dt else decay n s.dt := rfl
@[simp] theorem ticks_st (n : Nat) : (ticks n s).st = if s.fault.isSome then s.st else decay n s.st := rfl
@[simp] theorem ticks_mem (n : Nat) : (ticks n s).mem = s.mem := rfl
@[simp] theorem ticks_fb (n : Nat) : (ticks n s).fb = s.fb := rfl
@[simp] theorem ticks_wait (n : Nat) : (ticks n s).wait = s.wait := rfl
@[simp] theorem ticks_fault (n : Nat) : (ticks n s).fault = s.fault := rfl
@[simp] theorem ticks_fbChanged (n : Nat) : (ticks n s).fbChanged = s.fbChanged := rfl
@[simp] theorem ticks_params (n : Nat) : (ticks n s).params = s.params := rfl
@[simp] theorem ticks_now (n : Nat) : (ticks n s).now = s.now := rfl
@[simp] theorem ticks_inputs (n : Nat) : (ticks n s).inputs = s.inputs := rfl
@[simp] theorem ticks_clock (n : Nat) : (ticks n s).clock = s.clock := rfl
@[simp] theorem ticks_reg (n : Nat) (q : Reg) : (ticks n s).reg q = s.reg q := rfl
@[simp] theorem ticks_stackAt (n : Nat) (j : Nat) : (ticks n s).stackAt j = s.stackAt j := rfl

/-! ### The state vector as a whole (10_state.md R31) -/

@[simp] theorem latch_toStateVector (inp : Sample) : (latch inp s).toStateVector = s.toStateVector := rfl
@[simp] theorem consumeTurn_toStateVector : (s.consumeTurn).toStateVector = s.toStateVector := rfl

variable (c : StateVector) (params : Params) (inp : Sample)

@[simp] theorem assemble_toStateVector : (c.assemble params inp).toStateVector = c := rfl
@[simp] theorem assemble_fbChanged : (c.assemble params inp).fbChanged = false := rfl
@[simp] theorem assemble_params : (c.assemble params inp).params = params := rfl
@[simp] theorem assemble_now : (c.assemble params inp).now = inp := rfl
@[simp] theorem assemble_inputs : (c.assemble params inp).inputs = [] := rfl
@[simp] theorem assemble_clock : (c.assemble params inp).clock = 0 := rfl

end Sys2Proof.Machine
end

