-- ==== Sys2Proof/Laws/Ops.lean ====
section
/-! SUPPORT. One lemma per shared operation, saying once everything it does. -/

namespace Sys2Proof.Machine

/-! ## Registers -/

theorem reg_setReg (s : State) (r q : Reg) (b : Byte) :
    (s.setReg r b).reg q = if q = r then b else s.reg q := by
  simp only [State.reg, setReg_v, Vector.getElem_set, Fin.ext_iff, eq_comm (a := r.val)]

@[simp] theorem reg_setReg_self (s : State) (r : Reg) (b : Byte) : (s.setReg r b).reg r = b := by
  rw [reg_setReg, if_pos rfl]

theorem reg_setReg_of_ne (s : State) {r q : Reg} (h : q ≠ r) (b : Byte) : (s.setReg r b).reg q = s.reg q := by
  rw [reg_setReg, if_neg h]

theorem reg_setRegs (s : State) (v : Vector Byte 16) (q : Reg) : (s.setRegs v).reg q = v[q.val] := rfl

/-- Registers loaded in ascending order from register `j` (43_index_memory.md R175). -/
theorem loadPrefix_getElem (v : Vector Byte 16) (j : Nat) (bs : List Byte) (q : Reg) :
    (loadPrefix v j bs)[q.val] = if h : j ≤ q.val ∧ q.val - j < bs.length then bs[q.val - j] else v[q.val] := by
  induction bs generalizing v j with
  | nil => simp [loadPrefix]
  | cons b bs ih =>
    rw [loadPrefix, ih]
    by_cases hq : q.val = j
    · subst hq
      rw [dif_neg (by omega), dif_pos (by simp)]
      simp
    · by_cases hin : j + 1 ≤ q.val ∧ q.val - (j + 1) < bs.length
      · have hcons : j ≤ q.val ∧ q.val - j < (b :: bs).length := by simp only [List.length_cons]; omega
        rw [dif_pos hin, dif_pos hcons]
        simp only [show q.val - j = q.val - (j + 1) + 1 by omega, List.getElem_cons_succ]
      · have hcons : ¬ (j ≤ q.val ∧ q.val - j < (b :: bs).length) := by simp only [List.length_cons]; omega
        rw [dif_neg hin, dif_neg hcons, Vector.getElem_setIfInBounds, if_neg (Ne.symm hq)]

@[simp] theorem regsBelow_length (s : State) (n : Nat) : (s.regsBelow n).length = min n 16 := by
  simp [State.regsBelow]

theorem regsBelow_getElem (s : State) (n : Nat) (q : Reg) (h : q.val < (s.regsBelow n).length) :
    (s.regsBelow n)[q.val] = s.reg q := by
  simp [State.regsBelow, State.reg]

/-! ## The stack -/

theorem stackAt_eq (s : State) (j : Fin 16) : s.stackAt j.val = s.stack[j.val] := by
  simp [State.stackAt, List.getD_eq_getElem?_getD]

theorem stackAt_push (s : State) (a : Word) (j : Fin 16) :
    (s.push a).stackAt j.val = if j.val = s.sp.toNat then a else s.stackAt j.val := by
  simp only [stackAt_eq, push_stack, Vector.getElem_setIfInBounds, eq_comm (a := s.sp.toNat)]

/-! ## The framebuffer -/

theorem readCell_flipCell (fb : FrameBuffer) {cx cy : Nat} (hx : cx < 64) (hy : cy < 32) (qx qy : Nat) :
    readCell (flipCell fb cx cy) qx qy =
      if qx = cx ∧ qy = cy then !readCell fb qx qy else readCell fb qx qy := by
  unfold readCell flipCell readRow
  by_cases h : qy = cy
  · subst h
    have hrow : fb[qy]?.getD 0 = fb[qy] := by simp [hy]
    simp only [Vector.getElem?_setIfInBounds_self_of_lt hy, Option.getD_some, BitVec.getLsbD_xor,
      BitVec.getLsbD_twoPow, and_true]
    by_cases hq : qx = cx
    · subst hq
      simp [hx]
    · simp [hq, Ne.symm hq]
  · have : (fb.setIfInBounds cy ((fb[cy]?.getD 0) ^^^ BitVec.twoPow 64 cx))[qy]? = fb[qy]? :=
      Vector.getElem?_setIfInBounds_ne (Ne.symm h)
    rw [this, if_neg (by simp [h])]

@[simp] theorem readCell_clearedFb (cx cy : Nat) : readCell clearedFb cx cy = false := by
  unfold readCell readRow clearedFb
  rw [Vector.getElem?_replicate]
  split <;> simp

/-- Two framebuffers with the same cells are the same. -/
theorem fb_ext {fb fb' : FrameBuffer} (h : ∀ (cx : Fin 64) (cy : Fin 32), readCell fb cx.val cy.val = readCell fb' cx.val cy.val) :
    fb = fb' := by
  apply Vector.ext
  intro cy hcy
  apply BitVec.eq_of_getLsbD_eq
  intro cx hcx
  have := h ⟨cx, hcx⟩ ⟨cy, hcy⟩
  simpa [readCell, readRow, hcy] using this

/-! ## Faults -/

/-- An access either is in range and has its effect, or records OutOfBounds and the lowest address out of range. -/
theorem withRange_cases (len : Nat) (i : Instr) (s : State) (effect : State → State) :
    (checkRange s.index len = none ∧ withRange len i s effect = effect s) ∨
    ∃ addr, checkRange s.index len = some addr ∧
      withRange len i s effect = raiseFault .outOfBounds (some (encode i)) (some addr) s := by
  unfold withRange
  cases h : checkRange s.index len with
  | none => exact .inl ⟨rfl, rfl⟩
  | some addr => exact .inr ⟨addr, rfl, rfl⟩

/-- Ex9E and ExA1 (44_keys_timers.md R190 to R192): a value that names no key is a fault, any other is a skip on its key. -/
theorem skipOnKey_cases (x : Reg) (i : Instr) (wanted : Bool) (s : State) :
    (keyIndex s.params.keyIndexPolicy (s.reg x) = none ∧ skipOnKey x i wanted s =
      raiseFault .invalidKeyIndex (some (encode i)) (some ((s.reg x).setWidth 16)) s) ∨
    ∃ k, keyIndex s.params.keyIndexPolicy (s.reg x) = some k ∧
      skipOnKey x i wanted s = s.skipIf (s.keyHeld k == wanted) := by
  unfold skipOnKey
  cases h : keyIndex s.params.keyIndexPolicy (s.reg x) with
  | none => exact .inl ⟨rfl, rfl⟩
  | some k => exact .inr ⟨k, rfl, rfl⟩

/-- The fetch's range check passes exactly when both bytes exist (30_encoding.md R80). -/
theorem fetchCheck_eq_none_iff (s : State) : fetchCheck s = none ↔ s.pc.toNat + 1 < Config.memSize := by
  rw [fetchCheck, checkRange_eq_none_iff]
  omega

/-! ## Flags -/

/-- A flag instruction writes two registers, X and VF, in one order or the other (42_alu.md R140). -/
theorem flagOp_cases (f r : Byte → Byte → Byte) (x y : Reg) (s : State) :
    (∃ c, flagOp f r x y s = (s.setReg vf (f (s.reg x) (s.reg y))).setReg x c) ∨
    ∃ c, flagOp f r x y s = (s.setReg x c).setReg vf (f (s.reg x) (s.reg y)) := by
  unfold flagOp
  cases s.params.flagOrder
  · exact .inl ⟨_, rfl⟩
  · exact .inl ⟨_, rfl⟩
  · exact .inr ⟨_, rfl⟩

/-- Fx1E writes VF and I under every order (43_index_memory.md R171). -/
theorem indexOp_cases (x : Reg) (s : State) :
    ∃ a, indexOp x s = (s.setReg vf (indexFlag s.index (s.reg x))).setIndex a := by
  unfold indexOp
  cases s.params.flagOrder <;> exact ⟨_, rfl⟩

/-! ## Timers -/

theorem decay_toNat (n : Nat) (t : Byte) : (decay n t).toNat = t.toNat - n := by
  have ht := t.isLt
  unfold decay
  split
  · rename_i h
    simp [h]
  · rw [BitVec.toNat_ofNat]
    omega

@[simp] theorem decay_zero (t : Byte) : decay 0 t = t :=
  BitVec.eq_of_toNat_eq (by rw [decay_toNat]; rfl)

theorem decay_decay (m n : Nat) (t : Byte) : decay m (decay n t) = decay (n + m) t :=
  BitVec.eq_of_toNat_eq (by rw [decay_toNat, decay_toNat, decay_toNat]; omega)

/-- One Tick is `ticks 1`. -/
theorem tick_eq_ticks (s : State) : tick s = ticks 1 s := by
  have hdown : ∀ t : Byte, (if t.toNat > 0 then t - 1 else t) = decay 1 t := by decide
  unfold tick ticks
  by_cases h : s.fault.isSome
  · simp [h]
  · rw [if_neg h, if_neg h, if_neg h, hdown, hdown]
    rfl

@[simp] theorem ticks_zero (s : State) : ticks 0 s = s := by
  unfold ticks
  split <;> simp

theorem ticks_ticks (m n : Nat) (s : State) : ticks m (ticks n s) = ticks (n + m) s := by
  unfold ticks
  by_cases h : s.fault.isSome
  · simp [h]
  · simp [h, decay_decay]

/-! ## The start of a Step -/

variable (s : State)

@[simp] theorem beginStep_index : (beginStep s).index = s.index := rfl
@[simp] theorem beginStep_pc : (beginStep s).pc = s.pc := rfl
@[simp] theorem beginStep_sp : (beginStep s).sp = s.sp := rfl
@[simp] theorem beginStep_stack : (beginStep s).stack = s.stack := rfl
@[simp] theorem beginStep_stackAt (j : Nat) : (beginStep s).stackAt j = s.stackAt j := rfl
@[simp] theorem beginStep_v : (beginStep s).v = s.v := rfl
@[simp] theorem beginStep_reg (q : Reg) : (beginStep s).reg q = s.reg q := rfl
@[simp] theorem beginStep_mem : (beginStep s).mem = s.mem := rfl
@[simp] theorem beginStep_fb : (beginStep s).fb = s.fb := rfl
@[simp] theorem beginStep_wait : (beginStep s).wait = s.wait := rfl
@[simp] theorem beginStep_fault : (beginStep s).fault = s.fault := rfl
@[simp] theorem beginStep_fbChanged : (beginStep s).fbChanged = false := rfl
@[simp] theorem beginStep_params : (beginStep s).params = s.params := rfl
@[simp] theorem beginStep_now : (beginStep s).now = s.nextTurn.sample := rfl
@[simp] theorem beginStep_inputs : (beginStep s).inputs = s.inputs.tail := rfl
@[simp] theorem beginStep_clock : (beginStep s).clock = s.clock + 1 := rfl
@[simp] theorem beginStep_halted : (beginStep s).halted = s.halted := rfl
@[simp] theorem beginStep_fetchWord : fetchWord (beginStep s) = fetchWord s := rfl
@[simp] theorem beginStep_fetchCheck : fetchCheck (beginStep s) = fetchCheck s := rfl

theorem beginStep_dt :
    (beginStep s).dt = if s.fault.isSome then s.dt else decay s.nextTurn.ticks s.dt := rfl

theorem beginStep_st :
    (beginStep s).st = if s.fault.isSome then s.st else decay s.nextTurn.ticks s.st := rfl

theorem halted_iff : s.halted = true ↔ s.fault ≠ none := by
  cases h : s.fault <;> simp [State.halted, h]

theorem not_halted_iff : s.halted = false ↔ s.fault = none := by
  cases h : s.fault <;> simp [State.halted, h]

/-- Everything a Step event can do (30_encoding.md R86): halted, polling a key wait, a fetch fault, an illegal word, or one
instruction. -/
theorem stepEvent_cases :
    (s.fault ≠ none ∧ stepEvent s = .next s) ∨
    (s.fault = none ∧ ∃ x, s.wait = some x ∧ stepEvent s = .next (waitPoll x s)) ∨
    (s.fault = none ∧ s.wait = none ∧ ∃ addr, fetchCheck s = some addr ∧ stepEvent s = .next (fetchFault addr s)) ∨
    (s.fault = none ∧ s.wait = none ∧ fetchCheck s = none ∧ decodeWord (fetchWord s) = none ∧
      stepEvent s = .next (unknownOpcode (fetchWord s) s)) ∨
    (s.fault = none ∧ s.wait = none ∧ fetchCheck s = none ∧
      ∃ i, decodeWord (fetchWord s) = some i ∧ stepEvent s = exec i s) := by
  unfold stepEvent
  by_cases hf : s.fault = none
  · have hh := (not_halted_iff s).2 hf
    rw [hh]
    cases hw : s.wait with
    | some x => exact .inr (.inl ⟨hf, x, rfl, rfl⟩)
    | none =>
      cases hc : fetchCheck s with
      | some addr => exact .inr (.inr (.inl ⟨hf, rfl, addr, rfl, rfl⟩))
      | none =>
        cases hd : decodeWord (fetchWord s) with
        | none => exact .inr (.inr (.inr (.inl ⟨hf, rfl, rfl, rfl, rfl⟩)))
        | some i => exact .inr (.inr (.inr (.inr ⟨hf, rfl, rfl, i, rfl, rfl⟩)))
  · have hh := (halted_iff s).2 hf
    rw [hh]
    exact .inl ⟨hf, rfl⟩

/-! ## Turns as events (60_exceptions.md R221) -/

/-- The Ticks a turn still has are its next events, and its Step follows them. -/
theorem turnAt_add (turns : Nat → Turn) {n i k : Nat} (h : turnAt turns n = (i, k)) : turnAt turns (n + k) = (i, 0) := by
  induction k generalizing n with
  | zero => exact h
  | succ k ih =>
    have hn : turnAt turns (n + 1) = (i, k) := by rw [turnAt, h]
    rw [← ih hn, Nat.add_right_comm, Nat.add_assoc]

/-- Every turn begins at some event, none before the event of its own number. -/
theorem turnAt_start (turns : Nat → Turn) (i : Nat) : ∃ n, i ≤ n ∧ turnAt turns n = (i, (turns i).ticks) := by
  induction i with
  | zero => exact ⟨0, Nat.le_refl 0, rfl⟩
  | succ i ih =>
    obtain ⟨n, hin, hn⟩ := ih
    refine ⟨n + (turns i).ticks + 1, by omega, ?_⟩
    rw [turnAt, turnAt_add turns hn]

/-! ## The key wait (44_keys_timers.md R195) -/

theorem lowestHeldFrom_held (keys : BitVec 16) (k n : Nat) (h : ∃ j, k ≤ j ∧ j < k + n ∧ keys.getLsbD j = true) :
    k ≤ lowestHeldFrom keys k n ∧ lowestHeldFrom keys k n < k + n ∧
      keys.getLsbD (lowestHeldFrom keys k n) = true := by
  induction n generalizing k with
  | zero => obtain ⟨j, h1, h2, -⟩ := h; omega
  | succ n ih =>
    unfold lowestHeldFrom
    split
    · exact ⟨Nat.le_refl _, by omega, ‹_›⟩
    · obtain ⟨j, h1, h2, hj⟩ := h
      have hne : j ≠ k := by rintro rfl; exact absurd hj ‹_›
      obtain ⟨g1, g2, g3⟩ := ih (k + 1) ⟨j, by omega, by omega, hj⟩
      exact ⟨by omega, by omega, g3⟩

/-- If any key is held, the key a wait resolves on is a held key. -/
theorem chooseKey_held (inp : Sample) (h : inp.keys ≠ 0) :
    chooseKey inp < 16 ∧ inp.keys.getLsbD (chooseKey inp) = true := by
  unfold chooseKey
  split
  · exact ⟨inp.pick.isLt, ‹_›⟩
  · have hex : ∃ j, 0 ≤ j ∧ j < 0 + 16 ∧ inp.keys.getLsbD j = true := by
      by_contra hno
      refine h (BitVec.eq_of_getLsbD_eq fun j hj => ?_)
      have hj' : inp.keys.getLsbD j ≠ true := fun hk => hno ⟨j, Nat.zero_le _, by omega, hk⟩
      simpa using hj'
    obtain ⟨-, g2, g3⟩ := lowestHeldFrom_held inp.keys 0 16 hex
    exact ⟨by omega, g3⟩

/-- What a poll does (R195): nothing if no key is held, else the held key's index is written and the wait ends. -/
theorem waitPoll_cases (x : Reg) :
    (s.now.keys = 0 ∧ waitPoll x s = s) ∨
    (s.now.keys ≠ 0 ∧
      waitPoll x s = ((s.setReg x (BitVec.ofNat 8 (chooseKey s.now))).setWait none).advance 2) := by
  unfold waitPoll
  by_cases h : s.now.keys = 0
  · exact .inl ⟨h, if_pos h⟩
  · exact .inr ⟨h, if_neg h⟩

end Sys2Proof.Machine
end

