-- ==== Sys2Proof/Laws/Display.lean ====
section
/-! SUPPORT. What a sprite blit does to the cells and the collision flag (40_display.md R101 to R104): it is a sequence of hits,
one per lit sprite bit on the grid, and no cell is hit twice. -/

namespace Sys2Proof.Machine

/-! ## Hits -/

/-- A lit sprite bit on a cell: the cell is flipped, and a cell that held 1 sets the flag. -/
def hit (p : FrameBuffer × Bool) (c : Nat × Nat) : FrameBuffer × Bool :=
  (flipCell p.1 c.1 c.2, p.2 || readCell p.1 c.1 c.2)

/-- The cells the lit bits of columns `c`, …, `c + n - 1` of a row land on. -/
def colHits (edge : SpriteEdge) (x0 y : Nat) (row : Byte) (c : Nat) : Nat → List (Nat × Nat)
  | 0 => []
  | n + 1 => (if spriteBit row c then (target edge (x0 + c) y).toList else []) ++ colHits edge x0 y row (c + 1) n

/-- The cells the lit bits of a sprite land on. -/
def rowHits (edge : SpriteEdge) (x0 y : Nat) : List Byte → List (Nat × Nat)
  | [] => []
  | row :: rows => colHits edge x0 y row 0 8 ++ rowHits edge x0 (y + 1) rows

theorem plotBit_eq_hits (edge : SpriteEdge) (tx ty : Nat) (bit : Bool) (p : FrameBuffer × Bool) :
    plotBit edge tx ty bit p = (if bit then (target edge tx ty).toList else []).foldl hit p := by
  unfold plotBit
  cases target edge tx ty with
  | none => cases bit <;> rfl
  | some c => cases bit <;> simp [hit]

theorem plotCols_eq_hits (edge : SpriteEdge) (x0 y : Nat) (row : Byte) (c n : Nat) (p : FrameBuffer × Bool) :
    plotCols edge x0 y row c n p = (colHits edge x0 y row c n).foldl hit p := by
  induction n generalizing c p with
  | zero => rfl
  | succ n ih => rw [plotCols, ih, plotBit_eq_hits, colHits, List.foldl_append]

theorem plotRows_eq_hits (edge : SpriteEdge) (x0 y : Nat) (rows : List Byte) (p : FrameBuffer × Bool) :
    plotRows edge x0 y rows p = (rowHits edge x0 y rows).foldl hit p := by
  induction rows generalizing y p with
  | nil => rfl
  | cons row rows ih => rw [plotRows, ih, plotCols_eq_hits, rowHits, List.foldl_append]

/-! ## Which cells are hit -/

theorem target_inGrid {edge : SpriteEdge} {tx ty : Nat} {c : Nat × Nat} (h : target edge tx ty = some c) :
    c.1 < 64 ∧ c.2 < 32 := by
  cases edge with
  | wrap =>
    simp only [target, Option.some.injEq] at h
    subst h
    exact ⟨Nat.mod_lt _ (by decide), Nat.mod_lt _ (by decide)⟩
  | clip =>
    simp only [target] at h
    split at h
    · obtain rfl := Option.some.inj h
      assumption
    · cases h

/-- Which cell a sprite bit targets (R102). -/
theorem target_eq_some_iff (edge : SpriteEdge) (tx ty : Nat) (cx cy : Nat) (hx : cx < 64) (hy : cy < 32) :
    target edge tx ty = some (cx, cy) ↔
      match edge with
      | .wrap => tx % 64 = cx ∧ ty % 32 = cy
      | .clip => tx = cx ∧ ty = cy := by
  cases edge with
  | wrap => simp [target]
  | clip =>
    simp only [target]
    split
    · simp
    · rename_i h
      simp only [reduceCtorEq, false_iff]
      rintro ⟨rfl, rfl⟩
      exact h ⟨hx, hy⟩

theorem mem_colHits {edge : SpriteEdge} {x0 y : Nat} {row : Byte} {c n : Nat} {q : Nat × Nat} :
    q ∈ colHits edge x0 y row c n ↔
      ∃ k, c ≤ k ∧ k < c + n ∧ spriteBit row k = true ∧ target edge (x0 + k) y = some q := by
  induction n generalizing c with
  | zero =>
    simp only [colHits, List.not_mem_nil, false_iff]
    rintro ⟨k, h1, h2, -⟩
    omega
  | succ n ih =>
    rw [colHits, List.mem_append, ih]
    constructor
    · rintro (h | ⟨k, h1, h2, h3⟩)
      · split at h
        · exact ⟨c, Nat.le_refl _, by omega, ‹_›, by simpa using h⟩
        · cases h
      · exact ⟨k, by omega, by omega, h3⟩
    · rintro ⟨k, h1, h2, h3, h4⟩
      by_cases hk : k = c
      · subst hk
        left
        simp [h3, h4]
      · exact .inr ⟨k, by omega, by omega, h3, h4⟩

theorem mem_rowHits {edge : SpriteEdge} {x0 y : Nat} {rows : List Byte} {q : Nat × Nat} :
    q ∈ rowHits edge x0 y rows ↔
      ∃ (r : Nat) (h : r < rows.length) (k : Nat), k < 8 ∧ spriteBit rows[r] k = true ∧
        target edge (x0 + k) (y + r) = some q := by
  induction rows generalizing y with
  | nil =>
    simp only [rowHits, List.not_mem_nil, false_iff]
    rintro ⟨r, h, -⟩
    exact absurd h (Nat.not_lt_zero _)
  | cons row rows ih =>
    rw [rowHits, List.mem_append, mem_colHits, ih]
    constructor
    · rintro (⟨k, -, h2, h3⟩ | ⟨r, h, k, hk, hb, ht⟩)
      · exact ⟨0, by simp, k, by omega, h3⟩
      · refine ⟨r + 1, by simpa using h, k, hk, by simpa using hb, ?_⟩
        rw [← ht]
        congr 1
        omega
    · rintro ⟨r, h, k, hk, hb, ht⟩
      cases r with
      | zero => exact .inl ⟨k, Nat.zero_le _, by omega, by simpa using hb, ht⟩
      | succ r =>
        refine .inr ⟨r, by simpa using h, k, hk, by simpa using hb, ?_⟩
        rw [← ht]
        congr 1
        omega

/-- Different columns within 64 of each other, or different rows within 32, never share a cell (R102: "no cell is targeted
twice in one call"). -/
theorem target_injective {edge : SpriteEdge} {x0 y0 k k' r r' : Nat} {q : Nat × Nat}
    (h : target edge (x0 + k) (y0 + r) = some q) (h' : target edge (x0 + k') (y0 + r') = some q)
    (hk : k < k' + 64) (hk' : k' < k + 64) (hr : r < r' + 32) (hr' : r' < r + 32) : k = k' ∧ r = r' := by
  obtain ⟨cx, cy⟩ := q
  obtain ⟨hx, hy⟩ := target_inGrid h
  rw [target_eq_some_iff _ _ _ _ _ hx hy] at h h'
  cases edge with
  | wrap => simp only at h h'; omega
  | clip => simp only at h h'; omega

theorem nodup_colHits (edge : SpriteEdge) (x0 y : Nat) (row : Byte) (c n : Nat) (hn : n ≤ 64) :
    (colHits edge x0 y row c n).Nodup := by
  induction n generalizing c with
  | zero => exact List.nodup_nil
  | succ n ih =>
    rw [colHits, List.nodup_append]
    refine ⟨?_, ih (c + 1) (by omega), ?_⟩
    · split
      · cases target edge (x0 + c) y <;> simp
      · exact List.nodup_nil
    · rintro a ha b hb rfl
      split at ha
      · obtain ⟨k, h1, h2, -, ht⟩ := mem_colHits.1 hb
        have := target_injective (r := 0) (r' := 0) (by simpa using ha) (by simpa using ht) (by omega) (by omega)
          (by omega) (by omega)
        omega
      · cases ha

theorem nodup_rowHits (edge : SpriteEdge) (x0 y : Nat) (rows : List Byte) (hn : rows.length ≤ 32) :
    (rowHits edge x0 y rows).Nodup := by
  induction rows generalizing y with
  | nil => exact List.nodup_nil
  | cons row rows ih =>
    simp only [List.length_cons] at hn
    rw [rowHits, List.nodup_append]
    refine ⟨nodup_colHits edge x0 y row 0 8 (by decide), ih (y + 1) (by omega), ?_⟩
    rintro a ha b hb rfl
    obtain ⟨k, -, hk, -, ht⟩ := mem_colHits.1 ha
    obtain ⟨r, hr, k', hk', -, ht'⟩ := mem_rowHits.1 hb
    have ht'' : target edge (x0 + k') (y + (r + 1)) = some a := by
      rw [← ht']
      congr 1
      omega
    have := target_injective (r := 0) (by simpa using ht) ht'' (by omega) (by omega) (by omega) (by omega)
    omega

theorem rowHits_inGrid {edge : SpriteEdge} {x0 y : Nat} {rows : List Byte} {q : Nat × Nat}
    (h : q ∈ rowHits edge x0 y rows) : q.1 < 64 ∧ q.2 < 32 := by
  obtain ⟨r, _, k, -, -, ht⟩ := mem_rowHits.1 h
  exact target_inGrid ht

/-! ## What a sequence of hits does -/

theorem foldl_hit_cell (L : List (Nat × Nat)) (hnodup : L.Nodup) (hgrid : ∀ q ∈ L, q.1 < 64 ∧ q.2 < 32)
    (p : FrameBuffer × Bool) (cx cy : Nat) :
    readCell (L.foldl hit p).1 cx cy = (readCell p.1 cx cy ^^ decide ((cx, cy) ∈ L)) := by
  induction L generalizing p with
  | nil => simp
  | cons q L ih =>
    obtain ⟨hq, hL⟩ := List.nodup_cons.1 hnodup
    obtain ⟨h1, h2⟩ := hgrid q List.mem_cons_self
    rw [List.foldl_cons, ih hL (fun e he => hgrid e (List.mem_cons_of_mem _ he)), hit, readCell_flipCell _ h1 h2]
    by_cases hc : (cx, cy) = q
    · subst hc
      simp [hq]
    · have : ¬ (cx = q.1 ∧ cy = q.2) := fun h => hc (Prod.ext h.1 h.2)
      rw [if_neg this]
      simp [hc]

theorem foldl_hit_flag (L : List (Nat × Nat)) (hnodup : L.Nodup) (hgrid : ∀ q ∈ L, q.1 < 64 ∧ q.2 < 32)
    (p : FrameBuffer × Bool) :
    (L.foldl hit p).2 = true ↔ p.2 = true ∨ ∃ q ∈ L, readCell p.1 q.1 q.2 = true := by
  induction L generalizing p with
  | nil => simp
  | cons q L ih =>
    obtain ⟨hq, hL⟩ := List.nodup_cons.1 hnodup
    obtain ⟨h1, h2⟩ := hgrid q List.mem_cons_self
    rw [List.foldl_cons, ih hL (fun e he => hgrid e (List.mem_cons_of_mem _ he))]
    have hsame : ∀ e ∈ L, readCell (hit p q).1 e.1 e.2 = readCell p.1 e.1 e.2 := by
      intro e he
      rw [hit, readCell_flipCell _ h1 h2, if_neg]
      rintro ⟨e1, e2⟩
      exact hq (by rwa [← show e = q from Prod.ext e1 e2])
    constructor
    · rintro (h | ⟨e, he, hr⟩)
      · rcases (Bool.or_eq_true _ _).mp h with h | h
        · exact .inl h
        · exact .inr ⟨q, List.mem_cons_self, h⟩
      · exact .inr ⟨e, List.mem_cons_of_mem _ he, by rwa [hsame e he] at hr⟩
    · rintro (h | ⟨e, he, hr⟩)
      · exact .inl (by simp [hit, h])
      · rcases List.mem_cons.1 he with rfl | he
        · exact .inl (by simp [hit, hr])
        · exact .inr ⟨e, he, by rwa [hsame e he]⟩

/-! ## The blit of an instruction -/

/-- The cells the sprite of a Dxyn lights. -/
def State.sprite (s : State) (x y : Reg) (n : BitVec 4) : List (Nat × Nat) :=
  rowHits s.params.spriteEdge (s.reg x).toNat (s.reg y).toNat (s.mem.readBytes s.index.toNat n.toNat)

theorem sprite_nodup (s : State) (x y : Reg) (n : BitVec 4) : (s.sprite x y n).Nodup :=
  nodup_rowHits _ _ _ _ (by rw [Memory.readBytes_length]; have := n.isLt; omega)

theorem blit_cell (s : State) (x y : Reg) (n : BitVec 4) (cx cy : Nat) :
    readCell (s.blit x y n).1 cx cy = (readCell s.fb cx cy ^^ decide ((cx, cy) ∈ s.sprite x y n)) := by
  rw [State.blit, plotRows_eq_hits]
  exact foldl_hit_cell _ (sprite_nodup s x y n) (fun q hq => rowHits_inGrid hq) _ cx cy

theorem blit_flag (s : State) (x y : Reg) (n : BitVec 4) :
    (s.blit x y n).2 = true ↔ ∃ q ∈ s.sprite x y n, readCell s.fb q.1 q.2 = true := by
  rw [State.blit, plotRows_eq_hits]
  exact (foldl_hit_flag _ (sprite_nodup s x y n) (fun q hq => rowHits_inGrid hq) (s.fb, false)).trans (by simp [State.sprite])

end Sys2Proof.Machine
end

