-- ==== Sys2Proof/Laws/PerInstr.lean ====
section
/-! SUPPORT. Facts said of every instruction as syntax, one lemma per constructor. Family `RowMatch`: the word of an instruction
is the word of its row of the opcode table (30_encoding.md R85). -/

namespace Sys2Proof.Laws.RowMatch

/-- The row of the opcode table an instruction belongs to (30_encoding.md R85). -/
def rowOf : Instr → Row
  | .cls => ⟨0xFFFF, 0x00E0⟩
  | .ret => ⟨0xFFFF, 0x00EE⟩
  | .jp _ => ⟨0xF000, 0x1000⟩
  | .call _ => ⟨0xF000, 0x2000⟩
  | .seByte _ _ => ⟨0xF000, 0x3000⟩
  | .sneByte _ _ => ⟨0xF000, 0x4000⟩
  | .seReg _ _ => ⟨0xF00F, 0x5000⟩
  | .ldByte _ _ => ⟨0xF000, 0x6000⟩
  | .addByte _ _ => ⟨0xF000, 0x7000⟩
  | .ldReg _ _ => ⟨0xF00F, 0x8000⟩
  | .orReg _ _ => ⟨0xF00F, 0x8001⟩
  | .andReg _ _ => ⟨0xF00F, 0x8002⟩
  | .xorReg _ _ => ⟨0xF00F, 0x8003⟩
  | .addReg _ _ => ⟨0xF00F, 0x8004⟩
  | .subReg _ _ => ⟨0xF00F, 0x8005⟩
  | .shrReg _ _ => ⟨0xF00F, 0x8006⟩
  | .subnReg _ _ => ⟨0xF00F, 0x8007⟩
  | .shlReg _ _ => ⟨0xF00F, 0x800E⟩
  | .sneReg _ _ => ⟨0xF00F, 0x9000⟩
  | .ldIndex _ => ⟨0xF000, 0xA000⟩
  | .jpV0 _ => ⟨0xF000, 0xB000⟩
  | .rnd _ _ => ⟨0xF000, 0xC000⟩
  | .drw _ _ _ => ⟨0xF000, 0xD000⟩
  | .skp _ => ⟨0xF0FF, 0xE09E⟩
  | .sknp _ => ⟨0xF0FF, 0xE0A1⟩
  | .ldFromDelay _ => ⟨0xF0FF, 0xF007⟩
  | .ldKey _ => ⟨0xF0FF, 0xF00A⟩
  | .ldDelay _ => ⟨0xF0FF, 0xF015⟩
  | .ldSound _ => ⟨0xF0FF, 0xF018⟩
  | .addIndex _ => ⟨0xF0FF, 0xF01E⟩
  | .ldFont _ => ⟨0xF0FF, 0xF029⟩
  | .ldBcd _ => ⟨0xF0FF, 0xF033⟩
  | .storeRegs _ => ⟨0xF0FF, 0xF055⟩
  | .loadRegs _ => ⟨0xF0FF, 0xF065⟩

/-- The row stands in the opcode table, and it accepts the instruction's word. -/
def Statement (i : Instr) : Prop := rowOf i ∈ opcodeTable ∧ (rowOf i).accepts (encode i) = true

/-! ## The masked bits of each format -/

theorem and_packNNN (f g : BitVec 4) (a b : BitVec 12) :
    packNNN f a &&& packNNN g b = packNNN (f &&& g) (a &&& b) :=
  BitVec.and_append

theorem and_append12 (f g : BitVec 4) (a b : BitVec 8) :
    (f ++ a : BitVec 12) &&& (g ++ b : BitVec 12) = (f &&& g) ++ (a &&& b) :=
  BitVec.and_append

theorem and_append8 (f g : BitVec 4) (a b : BitVec 4) :
    (f ++ a : BitVec 8) &&& (g ++ b : BitVec 8) = (f &&& g) ++ (a &&& b) :=
  BitVec.and_append

theorem family_and (f : BitVec 4) : f &&& 0xF#4 = f := by
  revert f; decide

theorem regBits_and (x : Reg) : regBits x &&& 0#4 = regBits 0 := by
  revert x; decide

theorem mask_family (f : BitVec 4) (nnn : BitVec 12) : packNNN f nnn &&& 0xF000 = packNNN f 0 := by
  rw [show (0xF000 : Word) = packNNN 0xF#4 (0#12) by decide, and_packNNN, family_and, BitVec.and_zero]
  rfl

theorem mask_xkk (f : BitVec 4) (x : Reg) (kk : Byte) : packXKK f x kk &&& 0xF0FF = packXKK f 0 kk := by
  have hkk : kk &&& 0xFF#8 = kk := BitVec.and_allOnes
  unfold packXKK
  rw [show (0xF0FF : Word) = packNNN 0xF#4 (0x0#4 ++ 0xFF#8 : BitVec 12) by decide, and_packNNN, family_and, and_append12,
    regBits_and, hkk]

theorem mask_xyn (f : BitVec 4) (x y : Reg) (n : BitVec 4) : packXYN f x y n &&& 0xF00F = packXYN f 0 0 n := by
  unfold packXYN packXKK
  rw [show (0xF00F : Word) = packNNN 0xF#4 (0x0#4 ++ (0x0#4 ++ 0xF#4 : BitVec 8) : BitVec 12) by decide, and_packNNN, family_and,
    and_append12, and_append8, regBits_and, regBits_and, family_and]

theorem accepts_family (f : BitVec 4) (nnn : BitVec 12) (pattern : Word) (h : packNNN f 0 = pattern) :
    Row.accepts ⟨0xF000, pattern⟩ (packNNN f nnn) = true := by
  rw [Row.accepts, mask_family, h, beq_self_eq_true]

theorem accepts_xkk (f : BitVec 4) (x : Reg) (kk : Byte) (pattern : Word) (h : packXKK f 0 kk = pattern) :
    Row.accepts ⟨0xF0FF, pattern⟩ (packXKK f x kk) = true := by
  rw [Row.accepts, mask_xkk, h, beq_self_eq_true]

theorem accepts_xyn (f : BitVec 4) (x y : Reg) (n : BitVec 4) (pattern : Word) (h : packXYN f 0 0 n = pattern) :
    Row.accepts ⟨0xF00F, pattern⟩ (packXYN f x y n) = true := by
  rw [Row.accepts, mask_xyn, h, beq_self_eq_true]

/-- A row is in the table when the search for it succeeds. -/
theorem mem_of_contains {r : Row} (h : opcodeTable.contains r = true) : r ∈ opcodeTable :=
  List.contains_iff_mem.1 h

/-! ## One lemma per constructor -/

theorem cls : Statement .cls :=
  ⟨by decide, by decide⟩

theorem ret : Statement .ret :=
  ⟨by decide, by decide⟩

theorem jp (nnn : BitVec 12) : Statement (.jp nnn) :=
  ⟨mem_of_contains rfl, accepts_family _ _ _ (by decide)⟩

theorem call (nnn : BitVec 12) : Statement (.call nnn) :=
  ⟨mem_of_contains rfl, accepts_family _ _ _ (by decide)⟩

theorem seByte (x : Reg) (kk : Byte) : Statement (.seByte x kk) :=
  ⟨mem_of_contains rfl, accepts_family _ _ _ (by decide)⟩

theorem sneByte (x : Reg) (kk : Byte) : Statement (.sneByte x kk) :=
  ⟨mem_of_contains rfl, accepts_family _ _ _ (by decide)⟩

theorem seReg (x : Reg) (y : Reg) : Statement (.seReg x y) :=
  ⟨mem_of_contains rfl, accepts_xyn _ x y _ _ (by decide)⟩

theorem ldByte (x : Reg) (kk : Byte) : Statement (.ldByte x kk) :=
  ⟨mem_of_contains rfl, accepts_family _ _ _ (by decide)⟩

theorem addByte (x : Reg) (kk : Byte) : Statement (.addByte x kk) :=
  ⟨mem_of_contains rfl, accepts_family _ _ _ (by decide)⟩

theorem ldReg (x : Reg) (y : Reg) : Statement (.ldReg x y) :=
  ⟨mem_of_contains rfl, accepts_xyn _ x y _ _ (by decide)⟩

theorem orReg (x : Reg) (y : Reg) : Statement (.orReg x y) :=
  ⟨mem_of_contains rfl, accepts_xyn _ x y _ _ (by decide)⟩

theorem andReg (x : Reg) (y : Reg) : Statement (.andReg x y) :=
  ⟨mem_of_contains rfl, accepts_xyn _ x y _ _ (by decide)⟩

theorem xorReg (x : Reg) (y : Reg) : Statement (.xorReg x y) :=
  ⟨mem_of_contains rfl, accepts_xyn _ x y _ _ (by decide)⟩

theorem addReg (x : Reg) (y : Reg) : Statement (.addReg x y) :=
  ⟨mem_of_contains rfl, accepts_xyn _ x y _ _ (by decide)⟩

theorem subReg (x : Reg) (y : Reg) : Statement (.subReg x y) :=
  ⟨mem_of_contains rfl, accepts_xyn _ x y _ _ (by decide)⟩

theorem shrReg (x : Reg) (y : Reg) : Statement (.shrReg x y) :=
  ⟨mem_of_contains rfl, accepts_xyn _ x y _ _ (by decide)⟩

theorem subnReg (x : Reg) (y : Reg) : Statement (.subnReg x y) :=
  ⟨mem_of_contains rfl, accepts_xyn _ x y _ _ (by decide)⟩

theorem shlReg (x : Reg) (y : Reg) : Statement (.shlReg x y) :=
  ⟨mem_of_contains rfl, accepts_xyn _ x y _ _ (by decide)⟩

theorem sneReg (x : Reg) (y : Reg) : Statement (.sneReg x y) :=
  ⟨mem_of_contains rfl, accepts_xyn _ x y _ _ (by decide)⟩

theorem ldIndex (nnn : BitVec 12) : Statement (.ldIndex nnn) :=
  ⟨mem_of_contains rfl, accepts_family _ _ _ (by decide)⟩

theorem jpV0 (nnn : BitVec 12) : Statement (.jpV0 nnn) :=
  ⟨mem_of_contains rfl, accepts_family _ _ _ (by decide)⟩

theorem rnd (x : Reg) (kk : Byte) : Statement (.rnd x kk) :=
  ⟨mem_of_contains rfl, accepts_family _ _ _ (by decide)⟩

theorem drw (x : Reg) (y : Reg) (n : BitVec 4) : Statement (.drw x y n) :=
  ⟨mem_of_contains rfl, accepts_family _ _ _ (by decide)⟩

theorem skp (x : Reg) : Statement (.skp x) :=
  ⟨mem_of_contains rfl, accepts_xkk _ x _ _ (by decide)⟩

theorem sknp (x : Reg) : Statement (.sknp x) :=
  ⟨mem_of_contains rfl, accepts_xkk _ x _ _ (by decide)⟩

theorem ldFromDelay (x : Reg) : Statement (.ldFromDelay x) :=
  ⟨mem_of_contains rfl, accepts_xkk _ x _ _ (by decide)⟩

theorem ldKey (x : Reg) : Statement (.ldKey x) :=
  ⟨mem_of_contains rfl, accepts_xkk _ x _ _ (by decide)⟩

theorem ldDelay (x : Reg) : Statement (.ldDelay x) :=
  ⟨mem_of_contains rfl, accepts_xkk _ x _ _ (by decide)⟩

theorem ldSound (x : Reg) : Statement (.ldSound x) :=
  ⟨mem_of_contains rfl, accepts_xkk _ x _ _ (by decide)⟩

theorem addIndex (x : Reg) : Statement (.addIndex x) :=
  ⟨mem_of_contains rfl, accepts_xkk _ x _ _ (by decide)⟩

theorem ldFont (x : Reg) : Statement (.ldFont x) :=
  ⟨mem_of_contains rfl, accepts_xkk _ x _ _ (by decide)⟩

theorem ldBcd (x : Reg) : Statement (.ldBcd x) :=
  ⟨mem_of_contains rfl, accepts_xkk _ x _ _ (by decide)⟩

theorem storeRegs (x : Reg) : Statement (.storeRegs x) :=
  ⟨mem_of_contains rfl, accepts_xkk _ x _ _ (by decide)⟩

theorem loadRegs (x : Reg) : Statement (.loadRegs x) :=
  ⟨mem_of_contains rfl, accepts_xkk _ x _ _ (by decide)⟩

end Sys2Proof.Laws.RowMatch
end

