-- ==== Sys2Proof/Tests/Slice0.lean ====
section
/-! SUPPORT. Tests of the model. Expected values come from the spec: 30_encoding.md R85 for the words, 95_test_vectors.md for
the steps (the vector's number stands in the docstring). The witnesses show that the hypotheses of each statement can be met. -/

namespace Sys2Proof.Tests

open Sys2Proof Sys2Proof.Machine Sys2Proof.Claims

/-! ## Decoding: words written out bit by bit from 30_encoding.md R83 and R85 -/

theorem test_decode_format_z :
    decodeWord 0b0000000011100000 = some .cls ∧ decodeWord 0b0000000011101110 = some .ret := by decide

theorem test_decode_format_nnn :
    decodeWord 0b0001101010111100 = some (.jp 0xABC) ∧ decodeWord 0b0010010000000001 = some (.call 0x401) ∧
    decodeWord 0b1010000100100011 = some (.ldIndex 0x123) ∧
    decodeWord 0b1011111111111110 = some (.jpV0 0xFFE) := by decide

theorem test_decode_format_xkk :
    decodeWord 0b0011001101000010 = some (.seByte 3 0x42) ∧ decodeWord 0b0100001101000010 = some (.sneByte 3 0x42) ∧
    decodeWord 0b0110000101111011 = some (.ldByte 1 0x7B) ∧ decodeWord 0b0111111100000001 = some (.addByte 15 1) ∧
    decodeWord 0b1100000110000000 = some (.rnd 1 0x80) := by decide

theorem test_decode_format_xys_moves :
    decodeWord 0b0101000111100000 = some (.seReg 1 14) ∧ decodeWord 0b1001000111100000 = some (.sneReg 1 14) ∧
    decodeWord 0b1000000111100000 = some (.ldReg 1 14) ∧ decodeWord 0b1000000111100001 = some (.orReg 1 14) ∧
    decodeWord 0b1000000111100010 = some (.andReg 1 14) ∧
    decodeWord 0b1000000111100011 = some (.xorReg 1 14) := by decide

theorem test_decode_format_xys_flags :
    decodeWord 0b1000000111100100 = some (.addReg 1 14) ∧ decodeWord 0b1000000111100101 = some (.subReg 1 14) ∧
    decodeWord 0b1000000111100110 = some (.shrReg 1 14) ∧ decodeWord 0b1000000111100111 = some (.subnReg 1 14) ∧
    decodeWord 0b1000000111101110 = some (.shlReg 1 14) := by decide

theorem test_decode_format_xyn : decodeWord 0b1101000111101001 = some (.drw 1 14 9) := by decide

theorem test_decode_format_xf_keys :
    decodeWord 0b1110010110011110 = some (.skp 5) ∧ decodeWord 0b1110010110100001 = some (.sknp 5) ∧
    decodeWord 0b1111010100000111 = some (.ldFromDelay 5) ∧ decodeWord 0b1111010100001010 = some (.ldKey 5) ∧
    decodeWord 0b1111010100010101 = some (.ldDelay 5) ∧
    decodeWord 0b1111010100011000 = some (.ldSound 5) := by decide

theorem test_decode_format_xf_memory :
    decodeWord 0b1111010100011110 = some (.addIndex 5) ∧ decodeWord 0b1111010100101001 = some (.ldFont 5) ∧
    decodeWord 0b1111010100110011 = some (.ldBcd 5) ∧ decodeWord 0b1111010101010101 = some (.storeRegs 5) ∧
    decodeWord 0b1111010101100101 = some (.loadRegs 5) := by decide

/-- The encoder writes the same words, one per format. -/
theorem test_encode_formats :
    encode .ret = 0b0000000011101110 ∧ encode (.call 0x401) = 0b0010010000000001 ∧
    encode (.seByte 3 0x42) = 0b0011001101000010 ∧ encode (.xorReg 1 14) = 0b1000000111100011 ∧
    encode (.drw 1 14 9) = 0b1101000111101001 ∧ encode (.loadRegs 5) = 0b1111010101100101 := by decide

/-! ## Well-formedness smoke tests: an ill-formed input for each check -/

/-- V1 to V10: words that match no row. -/
theorem test_ill_formed_words :
    ([0x0000, 0x00E1, 0x0123, 0x5121, 0x8128, 0x812F, 0x9121, 0xE19F, 0xF100, 0xF1FF] : List Word).all
      (fun w => !wordWellFormed w && (decodeWord w).isNone) = true := by decide

/-- Each field of a row's mask counts: one bit of a legal word turned, family by family. -/
theorem test_ill_formed_neighbours :
    ([0x00E2, 0x00EF, 0x5122, 0x8129, 0x9128, 0xE1A0, 0xF10B, 0xF154] : List Word).all
      (fun w => !wordWellFormed w) = true := by decide

/-- V144, V145: 3584 bytes fit, 3585 do not. -/
theorem test_ill_formed_rom :
    romWellFormed (List.replicate 3584 0) = true ∧ romWellFormed (List.replicate 3585 0) = false := by
  constructor <;> rw [romWellFormed, List.length_replicate] <;> rfl

/-- Fewer than two bytes are no instruction. -/
theorem test_short_bytes : decodeBytes [] = .error .truncated ∧ decodeBytes [0x12] = .error .truncated := ⟨rfl, rfl⟩

/-! ## Small states -/

/-- A turn without Ticks. -/
def turn (keys : BitVec 16) (random : Byte) (pick : Fin 16) : Turn :=
  { ticks := 0, sample := { keys := keys, random := random, pick := pick } }

/-- Reset with the next turn decided: no Ticks, no key held, R = 0. -/
def bare : State := { State.reset with inputs := [turn 0 0 0] }

/-- Reset with the given inputs for the next turn. -/
def withTurn (t : Turn) : State := { State.reset with inputs := [t] }

def orderedBy (o : FlagOrder) (s : State) : State := { s with params := { s.params with flagOrder := o } }

def clipped (s : State) : State := { s with params := { s.params with spriteEdge := .clip } }

def store (s : State) (a : Nat) (bs : List Byte) : State := s.setMem (s.mem.writeBytes a bs)

/-- The word `w` placed at pc, then one step: does the next state satisfy `p`? -/
def stepping (w : Nat) (s : State) (p : State → Bool) : Bool :=
  match step (s.withFetchWord 16 w) with
  | .next t => p t
  | _ => false

/-- Reset with V1 and V2 set. -/
def operands (a b : Byte) : State := (bare.setReg 1 a).setReg 2 b

/-- Reset with V1, V2 and VF set. -/
def operandsVf (a b f : Byte) : State := (operands a b).setReg 15 f

/-- The next state has this V1 and this VF, and pc 0x202. -/
def gives (v1 v15 : Byte) (t : State) : Bool := t.reg 1 == v1 && t.reg 15 == v15 && t.pc == 0x202

/-- The next state holds this fault at pc 0x200, and `fb_changed` is 0. -/
def faults (cause : Cause) (opcode : Word) (addr : Option Word) (t : State) : Bool :=
  t.fault == some { cause := cause, pc := 0x200, opcode := some opcode, addr := addr } && t.pc == 0x200 && !t.fbChanged

/-! ## Load and reset -/

/-- V146, R245: the load of the empty ROM with the default FONT is the state after reset. -/
theorem test_load_empty_rom :
    (match load Params.default ⟨font.toArray, rfl⟩ (some []) with | .next t => t == State.reset | _ => false) = true := by
  decide

/-- R242's first and last glyph, read from the memory of reset, and V146. -/
theorem test_reset_memory :
    State.reset.mem.readBytes 0 5 = [0xF0, 0x90, 0x90, 0x90, 0xF0] ∧
    State.reset.mem.readBytes 0x4B 6 = [0xF0, 0x80, 0xF0, 0x80, 0x80, 0] ∧
    State.reset.mem.read 0xFFF = 0 ∧ State.reset.pc = 0x200 := by decide

/-- V143: the first Step after the load of nothing. -/
theorem test_step_of_reset_memory :
    (match step bare with | .next t => faults .unknownOpcode 0x0000 none t | _ => false) = true := by decide

/-! ## Fetch -/

/-- V11, V13: the fetch at 0xFFF and at 0x1000. -/
theorem test_fetch_out_of_range :
    ([0xFFF, 0x1000] : List Word).all (fun pc =>
      match step (bare.setPc pc) with
      | .next t => t.fault == some { cause := .outOfBounds, pc := pc, opcode := none, addr := some 0x1000 }
      | _ => false) = true := by decide

/-- V12 and V14: the last legal pc, and an odd pc. -/
theorem test_fetch_edges :
    stepping 0x1200 (bare.setPc 0xFFE) (fun t => t.pc == 0x200) = true ∧
    stepping 0x60AB (bare.setPc 0x201) (fun t => t.reg 0 == 0xAB && t.pc == 0x203) = true := by decide

/-! ## Display (V16 to V32) -/

/-- V16. -/
theorem test_cls :
    stepping 0x00E0 { bare with fb := Vector.replicate 32 1 }
      (fun t => t.fb == Vector.replicate 32 0 && t.fbChanged && t.pc == 0x202) = true := by decide

/-- V21 and V22: a row across the right edge, WRAP and CLIP. -/
theorem test_drw_edges :
    stepping 0xD011 ((store bare 0x300 [0xFF]).setIndex 0x300 |>.setReg 0 0x3E)
      (fun t => readRow t.fb 0 == 0xC00000000000003F && readRow t.fb 1 == 0 && t.reg 15 == 0 && t.pc == 0x202) = true ∧
    stepping 0xD011 (clipped ((store bare 0x300 [0xFF]).setIndex 0x300 |>.setReg 0 0x3E))
      (fun t => readRow t.fb 0 == 0xC000000000000000 && t.reg 15 == 0) = true := by decide

/-- V30: VF is the X coordinate, and the cell (5, 2) collides; V27: nothing changes on a range fault. -/
theorem test_drw_collision_and_range :
    stepping 0xDF11 ((({ store bare 0x300 [0x80] with fb := flipCell clearedFb 5 2 }.setIndex 0x300).setReg 1 2).setReg 15 5)
      (fun t => t.fb == clearedFb && t.reg 15 == 1 && t.fbChanged) = true ∧
    stepping 0xD012 ((bare.setIndex 0xFFF).setReg 15 7)
      (fun t => faults .outOfBounds 0xD012 (some 0x1000) t && t.fb == clearedFb && t.reg 15 == 7) = true := by decide

/-! ## Control flow (V33 to V54) -/

/-- V34 and V33. -/
theorem test_ret :
    stepping 0x00EE { bare with sp := 1, stack := bare.stack.set 0 0x4A2 } (fun t => t.sp == 0 && t.pc == 0x4A2) = true ∧
    stepping 0x00EE bare (fun t => faults .stackUnderflow 0x00EE none t && t.sp == 0) = true := by decide

/-- V35. -/
theorem test_jp : stepping 0x1ABC bare (fun t => t.pc == 0xABC) = true := by decide

/-- V39: the 16th nested call. -/
theorem test_call_sixteenth :
    stepping 0x2400 { bare with sp := 15 } (fun t => t.stackAt 15 == 0x202 && t.sp == 16 && t.pc == 0x400) = true := by
  decide

/-- V40. -/
theorem test_call_overflow :
    stepping 0x2400 { bare with sp := 16 } (fun t => faults .stackOverflow 0x2400 none t && t.sp == 16) = true := by decide

/-- V41, V42, V43, V44. -/
theorem test_skips_on_a_byte :
    stepping 0x3342 (bare.setReg 3 0x42) (fun t => t.pc == 0x204) = true ∧
    stepping 0x3342 (bare.setReg 3 0x41) (fun t => t.pc == 0x202) = true ∧
    stepping 0x4342 (bare.setReg 3 0x41) (fun t => t.pc == 0x204) = true ∧
    stepping 0x4342 (bare.setReg 3 0x42) (fun t => t.pc == 0x202) = true := by decide

/-- V45, V46, V47, V48. -/
theorem test_skips_on_a_register :
    stepping 0x5120 (operands 7 7) (fun t => t.pc == 0x204) = true ∧
    stepping 0x5120 (operands 7 8) (fun t => t.pc == 0x202) = true ∧
    stepping 0x9120 (operands 7 8) (fun t => t.pc == 0x204) = true ∧
    stepping 0x9120 (operands 7 7) (fun t => t.pc == 0x202) = true := by decide

/-- V53 and V52. -/
theorem test_jp_v0 :
    stepping 0xBFFF (bare.setReg 0 0xFF) (fun t => t.pc == 0x10FE && t.fault == none) = true ∧
    stepping 0xB300 (bare.setReg 0 0x10) (fun t => t.pc == 0x310) = true := by decide

/-! ## Registers and ALU (V55 to V96) -/

/-- V55, V56, V58: the loads and the add that sets no flag. -/
theorem test_loads_and_add_byte :
    stepping 0x617B (operandsVf 0 0 0x55) (gives 0x7B 0x55) = true ∧
    stepping 0x7101 (operandsVf 0xFF 0 0x55) (gives 0x00 0x55) = true ∧
    stepping 0x8120 (operandsVf 0 0x44 0x55) (gives 0x44 0x55) = true := by decide

/-- V59, V60, V61: VF is not reset. -/
theorem test_logic :
    stepping 0x8121 (operandsVf 0x0F 0xF0 0x55) (gives 0xFF 0x55) = true ∧
    stepping 0x8122 (operandsVf 0x3C 0x0F 0x55) (gives 0x0C 0x55) = true ∧
    stepping 0x8123 (operandsVf 0x3C 0x0F 0x55) (gives 0x33 0x55) = true := by decide

/-- W2, W3, V67. -/
theorem test_add :
    stepping 0x8124 (operandsVf 0xFF 0x01 0x55) (gives 0x00 1) = true ∧
    stepping 0x8124 (operandsVf 0x01 0x01 0x55) (gives 0x02 0) = true ∧
    stepping 0x8124 (operandsVf 0x7F 0x80 0x55) (gives 0xFF 0) = true := by decide

/-- W4, V70, V71: the flag is a strict comparison. -/
theorem test_sub :
    stepping 0x8125 (operandsVf 0x05 0x0A 0x55) (gives 0xFB 0) = true ∧
    stepping 0x8125 (operandsVf 0x0A 0x05 0x55) (gives 0x05 1) = true ∧
    stepping 0x8125 (operandsVf 0x05 0x05 0x55) (gives 0x00 0) = true := by decide

/-- W5, V77: Y is not read. -/
theorem test_shr :
    stepping 0x8106 (operandsVf 0x03 0 0x55) (gives 0x01 1) = true ∧
    stepping 0x8126 (operandsVf 0x04 0xFF 0x55) (gives 0x02 0) = true := by decide

/-- V78, V79, V80. -/
theorem test_subn :
    stepping 0x8127 (operandsVf 0x05 0x0A 0x55) (gives 0x05 1) = true ∧
    stepping 0x8127 (operandsVf 0x0A 0x05 0x55) (gives 0xFB 0) = true ∧
    stepping 0x8127 (operandsVf 0x07 0x07 0x55) (gives 0x00 0) = true := by decide

/-- V82, V83. -/
theorem test_shl :
    stepping 0x810E (operandsVf 0x81 0 0x55) (gives 0x02 1) = true ∧
    stepping 0x810E (operandsVf 0x7F 0 0x55) (gives 0xFE 0) = true := by decide

/-- V85, V86. -/
theorem test_rnd :
    stepping 0xC10F (withTurn (turn 0 0xA5 0)) (fun t => t.reg 1 == 0x05) = true ∧
    stepping 0xC1AA (withTurn (turn 0 0xFF 0)) (fun t => t.reg 1 == 0xAA) = true := by decide

/-- V88 (X = F) under the three orders. -/
theorem test_flag_order_x :
    stepping 0x8F14 (orderedBy .sequential (operandsVf 1 0 0xFF)) (fun t => t.reg 15 == 0x02) = true ∧
    stepping 0x8F14 (orderedBy .flagThenResult (operandsVf 1 0 0xFF)) (fun t => t.reg 15 == 0x00) = true ∧
    stepping 0x8F14 (orderedBy .resultThenFlag (operandsVf 1 0 0xFF)) (fun t => t.reg 15 == 0x01) = true := by decide

/-- V91 (Y = F) under the three orders. -/
theorem test_flag_order_y :
    stepping 0x81F5 (orderedBy .sequential (operandsVf 3 0 5)) (gives 0x03 0) = true ∧
    stepping 0x81F5 (orderedBy .flagThenResult (operandsVf 3 0 5)) (gives 0xFE 0) = true ∧
    stepping 0x81F5 (orderedBy .resultThenFlag (operandsVf 3 0 5)) (gives 0xFE 0) = true := by decide

/-! ## Index register and memory (V97 to V123) -/

/-- V97, V109. -/
theorem test_index_loads :
    stepping 0xA123 bare (fun t => t.index == 0x123 && t.pc == 0x202) = true ∧
    stepping 0xF029 (bare.setReg 0 0xFF) (fun t => t.index == 0x4FB && t.pc == 0x202) = true := by decide

/-- V100, V101, V102. -/
theorem test_add_index :
    stepping 0xF21E ((operandsVf 0 0x00 0x55).setIndex 0xFFF) (fun t => t.index == 0xFFF && t.reg 15 == 0) = true ∧
    stepping 0xF21E ((operandsVf 0 0x01 0x55).setIndex 0xFFF) (fun t => t.index == 0x1000 && t.reg 15 == 1) = true ∧
    stepping 0xF21E ((operandsVf 0 0x01 0x55).setIndex 0xFFFF) (fun t => t.index == 0 && t.reg 15 == 1) = true := by
  decide

/-- V103: X = F, SEQUENTIAL and another order. -/
theorem test_add_index_of_vf :
    stepping 0xFF1E ((operandsVf 0 0 5).setIndex 0xFFF) (fun t => t.index == 0x1000 && t.reg 15 == 1) = true ∧
    stepping 0xFF1E (orderedBy .resultThenFlag ((operandsVf 0 0 5).setIndex 0xFFF))
      (fun t => t.index == 0x1004 && t.reg 15 == 1) = true := by decide

/-- W6 and V114. -/
theorem test_bcd :
    stepping 0xF033 ((bare.setReg 0 0xFF).setIndex 0x300) (fun t => t.mem.readBytes 0x2FF 5 == [0, 2, 5, 5, 0]) = true ∧
    stepping 0xF033 ((bare.setReg 0 0xFF).setIndex 0xFFD) (fun t => t.mem.readBytes 0xFFD 3 == [2, 5, 5]) = true := by decide

/-- V115. -/
theorem test_bcd_out_of_range :
    stepping 0xF033 ((bare.setReg 0 0xFF).setIndex 0xFFE)
      (fun t => faults .outOfBounds 0xF033 (some 0x1000) t && t.mem.readBytes 0xFFE 2 == [0, 0]) = true := by decide

/-- V116 and V117. -/
theorem test_store_registers :
    stepping 0xF055 ((bare.setReg 0 0xAA).setIndex 0xFFF) (fun t => t.mem.read 0xFFF == 0xAA && t.index == 0xFFF) = true ∧
    stepping 0xF155 ((bare.setReg 0 0xAA).setIndex 0xFFF)
      (fun t => faults .outOfBounds 0xF155 (some 0x1000) t && t.mem.read 0xFFF == 0) = true := by decide

/-- V120 and V121. -/
theorem test_load_registers :
    stepping 0xF265 ((store bare 0x300 [1, 2, 3, 4]).setIndex 0x300)
      (fun t => t.reg 0 == 1 && t.reg 1 == 2 && t.reg 2 == 3 && t.reg 3 == 0 && t.index == 0x300) = true ∧
    stepping 0xFF65 ((store bare 0x30F [0x77]).setIndex 0x300) (fun t => t.reg 15 == 0x77) = true := by decide

/-- V122 and V123. -/
theorem test_load_registers_range :
    stepping 0xFF65 ((bare.setIndex 0xFF1).setReg 3 9)
      (fun t => faults .outOfBounds 0xFF65 (some 0x1000) t && t.reg 3 == 9) = true ∧
    stepping 0xFF65 (bare.setIndex 0xFF0) (fun t => t.fault == none && t.pc == 0x202) = true := by decide

/-! ## Keys and timers (V124 to V142) -/

/-- V124 to V127. -/
theorem test_key_skips :
    stepping 0xE19E ((withTurn (turn 0x0020 0 0)).setReg 1 5) (fun t => t.pc == 0x204) = true ∧
    stepping 0xE19E ((withTurn (turn 0x0000 0 0)).setReg 1 5) (fun t => t.pc == 0x202) = true ∧
    stepping 0xE1A1 ((withTurn (turn 0x0000 0 0)).setReg 1 5) (fun t => t.pc == 0x204) = true ∧
    stepping 0xE1A1 ((withTurn (turn 0x0020 0 0)).setReg 1 5) (fun t => t.pc == 0x202) = true := by decide

/-- V129 and V130. -/
theorem test_key_index_policy :
    stepping 0xE19E (bare.setReg 1 0x10) (faults .invalidKeyIndex 0xE19E (some 0x10)) = true ∧
    stepping 0xE19E { (withTurn (turn 1 0 0)).setReg 1 0x10 with
      params := { Params.default with keyIndexPolicy := .lowNibble } } (fun t => t.pc == 0x204) = true := by decide

/-- V131, V136, V137. -/
theorem test_timer_moves :
    stepping 0xF307 (bare.setDt 0x3C) (fun t => t.reg 3 == 0x3C) = true ∧
    stepping 0xF015 (bare.setReg 0 5) (fun t => t.dt == 5 && t.st == 0) = true ∧
    stepping 0xF018 (bare.setReg 0 2) (fun t => t.st == 2 && t.tone && t.dt == 0) = true := by decide

/-- V132: Fx0A does not poll in its own Step, even with a key held (V142). -/
theorem test_key_wait_starts :
    stepping 0xF20A ((withTurn (turn 0x0008 0 3)).setPc 0x230)
      (fun t => t.wait == some 2 && t.pc == 0x230 && t.reg 2 == 0) = true := by decide

/-- V134: keys 3 and 5 held; either may be taken. -/
theorem test_key_wait_resolves :
    ([(0, 3), (3, 3), (5, 5)] : List (Fin 16 × Byte)).all (fun c =>
      match step (((withTurn (turn 0x0028 0 c.1)).setWait (some 2)).setPc 0x230) with
      | .next t => t.reg 2 == c.2 && t.wait == none && t.pc == 0x232
      | _ => false) = true := by decide

/-- V138, V140, V141: Ticks. -/
theorem test_ticks :
    (tick (tick (bare.setSt 2))).tone = false ∧ (tick ((bare.setDt 1).setSt 3)).dt = 0 ∧
    (tick ((bare.setDt 1).setSt 3)).st = 2 ∧ (tick (unknownOpcode 0 (bare.setDt 5))).dt = 5 := by decide

/-- W9: 5 Ticks, then 2 more, in one turn before a Step. -/
theorem test_ticks_before_a_step :
    ([5, 7] : List Nat).all (fun n =>
      stepping 0x1202 { bare.setDt 5 with inputs := [{ ticks := n, sample := (turn 0 0 0).sample }] }
        (fun t => t.dt == 0 && t.inputs == [])) = true := by decide

/-- R222 with STEPS_PER_TICK = 2: Ticks before Steps 2 and 4. -/
theorem test_reference_schedule :
    (referenceSchedule 2 6 (fun _ => (turn 0 0 0).sample)).map Turn.ticks = [0, 0, 1, 0, 1, 0] := by decide

/-- R222 with STEPS_PER_TICK = 2: two Steps, then a Tick, the last group's too. -/
theorem test_reference_interleaving :
    (List.range 6).map (fun n => decide (referenceInterleaving 2 (fun _ => (turn 0 0 0).sample) n = .tick)) =
      [false, false, true, false, false, true] ∧
    referenceInterleaving 2 (fun j => (turn 0 (BitVec.ofNat 8 j) 0).sample) 4 = .step (turn 0 3 0).sample := by decide

/-- Turns of 2, 0 and 2 Ticks, event by event. -/
theorem test_interleaving_of_turns :
    (List.range 7).map (fun n => decide (interleavingOf
        (fun j => { ticks := if j % 2 = 0 then 2 else 0, sample := (turn 0 0 0).sample }) n = .tick)) =
      [true, true, false, false, true, true, false] := by decide

/-! ## Witnesses: states and operands that meet the hypotheses of the statements -/

/-- The word `w` stands at pc. -/
def holding (w : Nat) (s : State) : State := s.withFetchWord 16 w

theorem witness_encode_of_decode : decodeWord 0x8126 = some (.shrReg 1 2) := by decide

theorem witness_opcode_table_row :
    (⟨0xF00F, 0x8006⟩ : Row) ∈ opcodeTable ∧ Row.accepts ⟨0xF00F, 0x8006⟩ 0x8126 = true := by decide

/-- At the reset vector, and at the last pc a fetch succeeds at. -/
theorem witness_step_runs_instruction :
    Executes (holding 0x6012 bare) (.ldByte 0 0x12) ∧ Executes (holding 0x6012 (bare.setPc 0xFFE)) (.ldByte 0 0x12) ∧
    (holding 0x6012 bare).inputs = [turn 0 0 0] :=
  ⟨⟨rfl, rfl, by decide, rfl⟩, ⟨rfl, rfl, by decide, rfl⟩, rfl⟩

/-- The first pc that has no second byte, and a pc above memory. -/
theorem witness_fetch_beyond_memory :
    (bare.setPc 0xFFF).fault = none ∧ (bare.setPc 0xFFF).wait = none ∧ 0xFFE < (bare.setPc 0xFFF).pc.toNat ∧
    0xFFE < (bare.setPc 0x10FE).pc.toNat := by decide

theorem witness_unknown_opcode :
    (bare.setPc 0xFFE).fault = none ∧ (bare.setPc 0xFFE).wait = none ∧ (bare.setPc 0xFFE).pc.toNat ≤ 0xFFE ∧
    (0 : Word) = joinBytes ((bare.setPc 0xFFE).mem.read 0xFFE) ((bare.setPc 0xFFE).mem.read 0xFFF) ∧
    wordWellFormed 0 = false := by decide

/-- The faults without an address: an illegal word, a full stack, an empty stack. -/
theorem witness_faults_without_address :
    (bare.fault = none ∧ bare.wait = none ∧ bare.pc.toNat ≤ 0xFFE ∧ wordWellFormed (fetchWord bare) = false) ∧
    ({ bare with sp := 16 } : State).sp = 16 ∧ bare.sp = 0 := by decide

theorem witness_parameters :
    ∃ s, load ⟨.clip, .flagThenResult, .lowNibble⟩ ⟨font.toArray, rfl⟩ (some [0x00, 0xE0]) = .next s := ⟨_, rfl⟩

theorem witness_halted : (unknownOpcode 0 bare).fault ≠ none := by decide

/-- A fault of an instruction: a return with an empty stack. -/
theorem witness_fault_is_precise :
    ∃ t r, (holding 0x00EE bare).fault = none ∧ step (holding 0x00EE bare) = .next t ∧ t.fault = some r :=
  ⟨_, _, rfl, rfl, rfl⟩

theorem witness_reference_schedule : 0 < 10 ∧ 0 < 34 := by decide

/-- The shortest ROM that is rejected and the longest that loads. -/
theorem witness_load_lengths :
    3584 < (List.replicate 3585 (0 : Byte)).length ∧ (List.replicate 3584 (0 : Byte)).length ≤ 3584 := by
  rw [List.length_replicate, List.length_replicate]; exact ⟨by decide, Nat.le_refl _⟩

theorem witness_tick : (unknownOpcode 0 bare).fault ≠ none ∧ (bare.setDt 1).fault = none := by decide

/-- The invariant holds in a state whose step completes. -/
theorem witness_invariant_step :
    ∃ t, Inv (bare.setPc 0xFFF) ∧ step (bare.setPc 0xFFF) = .next t :=
  ⟨_, ⟨Memory.nil_wf, by decide, by decide, by decide, by decide, by decide⟩, rfl⟩

theorem witness_reachable : Reachable (tick State.reset) :=
  .event .tick _ _ (.load Params.default ⟨font.toArray, rfl⟩ (some []) State.reset rfl) rfl

/-- A register written by an instruction, and by the end of a key wait. -/
theorem witness_register_changes :
    (∃ t, step (holding 0x6012 bare) = .next t ∧ t.reg 0 ≠ (holding 0x6012 bare).reg 0) ∧
    ∃ t, step ((withTurn (turn 8 0 0)).setWait (some 2)) = .next t ∧
      t.reg 2 ≠ ((withTurn (turn 8 0 0)).setWait (some 2)).reg 2 :=
  ⟨⟨_, rfl, by decide⟩, ⟨_, rfl, by decide⟩⟩

theorem witness_index_changes :
    ∃ t, step (holding 0xA123 bare) = .next t ∧ t.index ≠ (holding 0xA123 bare).index := ⟨_, rfl, by decide⟩

theorem witness_memory_changes :
    ∃ t, Memory.wf (holding 0xF033 ((bare.setReg 0 1).setIndex 0xFFD)).mem ∧
      step (holding 0xF033 ((bare.setReg 0 1).setIndex 0xFFD)) = .next t ∧
      t.mem.read 0xFFF ≠ (holding 0xF033 ((bare.setReg 0 1).setIndex 0xFFD)).mem.read 0xFFF :=
  ⟨_, by decide, rfl, by decide⟩

theorem witness_framebuffer_changes :
    ∃ t, step (holding 0xD005 bare) = .next t ∧ t.fb ≠ (holding 0xD005 bare).fb := ⟨_, rfl, by decide⟩

/-- The stack pointer and the last stack entry change in the 16th nested call. -/
theorem witness_stack_changes :
    ∃ t, step (holding 0x2400 { bare with sp := 15 }) = .next t ∧ t.sp ≠ 15 ∧
      t.stackAt (15 : Fin 16).val ≠ (holding 0x2400 { bare with sp := 15 }).stackAt (15 : Fin 16).val :=
  ⟨_, rfl, by decide, by decide⟩

theorem witness_timer_changes :
    (∃ t, exec (.ldDelay 0) (bare.setReg 0 5) = .next t ∧ t.dt ≠ (bare.setReg 0 5).dt) ∧
    ∃ t, exec (.ldSound 0) (bare.setReg 0 5) = .next t ∧ t.st ≠ (bare.setReg 0 5).st :=
  ⟨⟨_, rfl, by decide⟩, ⟨_, rfl, by decide⟩⟩

theorem witness_some_step : ∃ t, step (holding 0x00E0 bare) = .next t := ⟨_, rfl⟩

/-- The three alternatives: a plain flag instruction, X = F with the flag written last, Fx1E and Dxyn. -/
theorem witness_flag_values :
    ((1 : Reg) ≠ vf ∧ ∃ t, exec (.addReg 1 15) bare = .next t) ∧
    ((orderedBy .resultThenFlag bare).params.flagOrder = .resultThenFlag ∧
      ∃ t, exec (.shlReg 15 0) (orderedBy .resultThenFlag bare) = .next t) ∧
    (∃ t, exec (.addIndex 15) bare = .next t) ∧
    SpriteInRange bare 15 ∧ ∃ t, exec (.drw 15 0 15) bare = .next t :=
  ⟨⟨by decide, _, rfl⟩, ⟨rfl, _, rfl⟩, ⟨_, rfl⟩, .inr (by decide), _, rfl⟩

theorem witness_ignores_inputs :
    (∀ x kk, Instr.ldKey 3 ≠ .rnd x kk) ∧ (∀ x, Instr.ldKey 3 ≠ .skp x) ∧ (∀ x, Instr.ldKey 3 ≠ .sknp x) ∧
    ∃ t, exec (.ldKey 3) bare = .next t :=
  ⟨fun _ _ => by simp, fun _ => by simp, fun _ => by simp, _, rfl⟩

theorem witness_plain_registers :
    (1 : Reg) ≠ vf ∧ (2 : Reg) ≠ vf ∧ 255 = ((operands 255 1).reg 1).toNat ∧ 1 = ((operands 255 1).reg 2).toNat := by
  decide

/-- Both cases of each skip. -/
theorem witness_skips :
    (bare.setReg 3 0x42).reg 3 = 0x42 ∧ (bare.setReg 3 0x41).reg 3 ≠ 0x42 ∧
    (operands 7 7).reg 1 = (operands 7 7).reg 2 ∧ (operands 7 8).reg 1 ≠ (operands 7 8).reg 2 := by decide

/-- The full stack, and the first and the last entry a call writes. -/
theorem witness_call :
    ({ bare with sp := 16 } : State).sp = 16 ∧ bare.sp.toNat = (0 : Fin 16).val ∧
    ({ bare with sp := 15 } : State).sp.toNat = (15 : Fin 16).val := by decide

/-- The empty stack, and the first and the last entry a return reads. -/
theorem witness_return :
    bare.sp = 0 ∧ ({ bare with sp := 1 } : State).sp.toNat = (0 : Fin 16).val + 1 ∧
    ({ bare with sp := 16 } : State).sp.toNat = (15 : Fin 16).val + 1 := by decide

/-- W8: the callee's state is the caller's after the call. -/
theorem witness_return_undoes_call :
    ∃ t u : State, (bare.setPc 0x300).sp.toNat < 16 ∧ exec (.call 0x200) (bare.setPc 0x300) = .next t ∧ u.sp = t.sp ∧
      ∀ j : Fin 16, u.stackAt j.val = t.stackAt j.val :=
  ⟨_, _, by decide, rfl, rfl, fun _ => rfl⟩

/-- The sum at 0xFFF and at 0x1000, and X = F under SEQUENTIAL. -/
theorem witness_add_to_index :
    (0 = if ((operands 0 0).setIndex 0xFFF).index.toNat + ((operands 0 0).reg 1).toNat > 0xFFF then 1 else 0) ∧
    (1 = if ((operands 1 0).setIndex 0xFFF).index.toNat + ((operands 1 0).reg 1).toNat > 0xFFF then 1 else 0) ∧
    (bare.params.flagOrder = .sequential ∧ (15 : Reg) = vf) := by decide

/-- Memory in canonical form with cells in it; I at both sides of the limit of Fx33. -/
theorem witness_bcd :
    Memory.wf (store bare 0x300 [1, 2, 3]).mem ∧ ((store bare 0x300 [1, 2, 3]).setIndex 0xFFE).index.toNat + 2 > 0xFFF ∧
    ((store bare 0x300 [1, 2, 3]).setIndex 0xFFD).index.toNat + 2 ≤ 0xFFF := by decide

/-- I at both sides of the limit of FF55 and FF65, and of F055 and F065. -/
theorem witness_register_block :
    Memory.wf (store bare 0x300 [1, 2, 3]).mem ∧ (bare.setIndex 0xFF1).index.toNat + (15 : Reg).val > 0xFFF ∧
    (bare.setIndex 0xFF0).index.toNat + (15 : Reg).val ≤ 0xFFF ∧
    (bare.setIndex 0x1000).index.toNat + (0 : Reg).val > 0xFFF ∧
    (bare.setIndex 0xFFF).index.toNat + (0 : Reg).val ≤ 0xFFF := by decide

/-- I in range but the access not, and I itself out of range (V27, V28). -/
theorem witness_out_of_range :
    (0x1000 : Word).toNat = max (bare.setIndex 0xFFF).index.toNat 0x1000 ∧ (2 : BitVec 4) ≠ 0 ∧
    (bare.setIndex 0xFFF).index.toNat + (2 : BitVec 4).toNat - 1 > 0xFFF ∧
    (bare.setIndex 0xFFF).index.toNat + 2 > 0xFFF ∧ (bare.setIndex 0xFFF).index.toNat + (1 : Reg).val > 0xFFF ∧
    (0x1005 : Word).toNat = max (bare.setIndex 0x1005).index.toNat 0x1000 := by decide

/-- P7: the state in which 0x1208 is stored at the next pc. -/
def aboutToStore : State := (((bare.setReg 0 0x12).setReg 1 0x08).setPc 0x206).setIndex 0x208

theorem witness_stored_code :
    ∃ t, Memory.wf aboutToStore.mem ∧ aboutToStore.fault = none ∧ aboutToStore.wait = none ∧ 1 ≤ (1 : Reg).val ∧
      aboutToStore.index = aboutToStore.pc + 2 ∧ aboutToStore.index.toNat + (1 : Reg).val ≤ 0xFFF ∧
      exec (.storeRegs 1) aboutToStore = .next t ∧
      decodeWord (joinBytes (aboutToStore.reg 0) (aboutToStore.reg 1)) = some (.jp 0x208) :=
  ⟨_, by decide, rfl, rfl, by decide, by decide, by decide, rfl, by decide⟩

theorem witness_canonical_memory :
    Memory.wf [(0x300, 1), (0x302, 2)] ∧
      ∀ a, Memory.read [(0x300, 1), (0x302, 2)] a = Memory.read [(0x300, 1), (0x302, 2)] a := ⟨by decide, fun _ => rfl⟩

/-- The last value that names a key, and the first that does not under each policy; the key held and not held. -/
theorem witness_key_skips :
    (15 = ((bare.setReg 1 0xF).reg 1).toNat ∧ 15 ≤ 0xF) ∧
    (16 = ((bare.setReg 1 0x10).reg 1).toNat ∧ 0xF < 16 ∧ bare.params.keyIndexPolicy = .fault) ∧
    (({ bare with params := { Params.default with keyIndexPolicy := .lowNibble } } : State).params.keyIndexPolicy =
      .lowNibble ∧ 0 = 16 % 16) ∧
    ({ bare with now := (turn 0x8000 0 0).sample } : State).now.keys.getLsbD 15 = true ∧
    bare.now.keys.getLsbD 15 = false := by decide

/-- A waiting core with no key held, and with the last key held and drawn. -/
theorem witness_wait :
    (bare.setWait (some 15)).fault = none ∧ (bare.setWait (some 15)).wait = some 15 ∧
    (bare.setWait (some 15)).nextTurn.sample.keys = 0 ∧
    ((withTurn (turn 0x8000 0 15)).setWait (some 15)).nextTurn.sample.keys ≠ 0 ∧
    ((withTurn (turn 0x8000 0 15)).setWait (some 15)).nextTurn.sample.keys.getLsbD (15 : Fin 16).val = true := by decide

/-- No rows with I anywhere, and 15 rows that end at 0xFFF. -/
theorem witness_draw :
    SpriteInRange (bare.setIndex 0xFFFF) 0 ∧ SpriteInRange (bare.setIndex 0xFF1) 15 ∧ ¬ SpriteInRange (bare.setIndex 0xFF2) 15 :=
  ⟨.inl rfl, .inr (by decide), fun h => by rcases h with h | h <;> revert h <;> decide⟩

/-- Glyph 0 on a cell that is 1, and on a clear screen. -/
def onCell : State := { bare with fb := flipCell clearedFb 0 0 }

theorem witness_collision :
    (∃ t, SpriteInRange onCell 5 ∧ exec (.drw 0 1 5) onCell = .next t ∧
      readCell onCell.fb (0 : Fin 64).val (0 : Fin 32).val = true ∧
      readCell t.fb (0 : Fin 64).val (0 : Fin 32).val = false) ∧
    ∃ t, SpriteInRange bare 5 ∧ exec (.drw 0 1 5) bare = .next t ∧
      ∀ (cx : Fin 64) (cy : Fin 32), readCell bare.fb cx.val cy.val = true → readCell t.fb cx.val cy.val = true :=
  ⟨⟨_, .inr (by decide), rfl, by decide, by decide⟩, ⟨_, .inr (by decide), rfl, fun cx cy h => by
    have h0 : readCell bare.fb cx.val cy.val = false := readCell_clearedFb cx.val cy.val
    rw [h0] at h; exact absurd h (by decide)⟩⟩

theorem witness_drawing_twice :
    ∃ t u, SpriteInRange bare 5 ∧ (0 : Reg) ≠ vf ∧ (1 : Reg) ≠ vf ∧ exec (.drw 0 1 5) bare = .next t ∧
      exec (.drw 0 1 5) t = .next u ∧ (∃ cx cy, SpriteLights bare 0 1 5 cx cy) ∧
      ∀ cx cy, SpriteLights bare 0 1 5 cx cy → readCell bare.fb cx.val cy.val = false :=
  ⟨_, _, .inr (by decide), by decide, by decide, rfl, rfl, ⟨0, 0, 0, 0, by decide, by decide, by decide, by decide, by decide⟩,
    fun cx cy _ => readCell_clearedFb cx.val cy.val⟩

/-- Two states with one state vector that differ in everything beside it, one of them with a step. -/
def besideVector : State :=
  { bare with fbChanged := true, params := ⟨.clip, .flagThenResult, .lowNibble⟩, now := (turn 1 2 3).sample, clock := 9 }

theorem witness_state_vector :
    bare.toStateVector = besideVector.toStateVector ∧ bare ≠ besideVector ∧ ∃ t, step bare = .next t :=
  ⟨rfl, by decide, _, rfl⟩

/-- `t` is the next state and its fault has this cause. -/
def stepsInto (cause : Cause) (s : State) : Prop :=
  ∃ t r, s.fault = none ∧ step s = .next t ∧ t.fault = some r ∧ r.cause = cause

/-- A step into each of the five run-time causes; OutOfBounds by a fetch, by Dxyn and by FF65. -/
theorem witness_listed_conditions :
    stepsInto .outOfBounds (bare.setPc 0xFFF) ∧ stepsInto .outOfBounds (holding 0xD012 (bare.setIndex 0xFFF)) ∧
    stepsInto .outOfBounds (holding 0xFF65 (bare.setIndex 0xFF1)) ∧ stepsInto .unknownOpcode bare ∧
    stepsInto .stackOverflow (holding 0x2400 { bare with sp := 16 }) ∧ stepsInto .stackUnderflow (holding 0x00EE bare) ∧
    stepsInto .invalidKeyIndex (holding 0xE19E (bare.setReg 1 0x10)) :=
  ⟨⟨_, _, rfl, rfl, rfl, rfl⟩, ⟨_, _, rfl, rfl, rfl, rfl⟩, ⟨_, _, rfl, rfl, rfl, rfl⟩, ⟨_, _, rfl, rfl, rfl, rfl⟩,
    ⟨_, _, rfl, rfl, rfl, rfl⟩, ⟨_, _, rfl, rfl, rfl, rfl⟩, ⟨_, _, rfl, rfl, rfl, rfl⟩⟩

/-- A ROM that cannot be read. -/
theorem witness_load_failure :
    ∃ f, load Params.default ⟨font.toArray, rfl⟩ none = .fault f := ⟨_, rfl⟩

/-- The last turn of a schedule, and one with a Tick. -/
theorem witness_reference_schedule_turn : 0 < 10 ∧ 33 < 34 ∧ 0 < 3 ∧ 30 = 3 * 10 := by decide

/-- Turns with one Tick each; turns with none are not fair. -/
theorem witness_fair_turns :
    FairTurns (fun _ => { ticks := 1, sample := (turn 0 0 0).sample }) ∧ ¬ FairTurns (fun _ => turn 0 0 0) :=
  ⟨fun n => ⟨n, Nat.le_refl n, Nat.one_pos⟩, fun h => by obtain ⟨m, -, hm⟩ := h 0; exact absurd hm (Nat.lt_irrefl 0)⟩

/-- Ticks and Steps in turn, with no key held. -/
def alternating : Interleaving := fun n => if n % 2 = 0 then .tick else .step (turn 0 0 0).sample

/-- A core that waits for a key, with both timers at `d`. -/
def waitingAt (d : Byte) : State := ((bare.setWait (some 0)).setDt d).setSt d

/-- The wait at 1, then at 0 for good. -/
def waitingRun : Nat → State
  | 0 => waitingAt 1
  | _ + 1 => waitingAt 0

theorem witness_fair_run :
    Admissible alternating ∧ Follows alternating waitingRun ∧ (∀ n, (waitingRun n).fault = none) ∧
    (∀ n inp x, alternating n = .step inp → ¬ Executes (waitingRun n) (.ldDelay x)) ∧
    (∀ n inp x, alternating n = .step inp → ¬ Executes (waitingRun n) (.ldSound x)) ∧
    (waitingRun 0).dt ≠ 0 ∧ (waitingRun 0).st ≠ 0 := by
  have hwait : ∀ n, (waitingRun n).wait ≠ none := by
    rintro (_ | n) <;> exact Option.some_ne_none 0
  refine ⟨⟨fun n => ⟨2 * n + 1, by omega, ?_⟩, fun n => ⟨2 * n, by omega, ?_⟩⟩, ?_, ?_, ?_, ?_, by decide, by decide⟩
  · exact ⟨(turn 0 0 0).sample, if_neg (by omega)⟩
  · exact if_pos (by omega)
  · rintro (_ | n)
    · rfl
    · unfold alternating
      split <;> rfl
  · rintro (_ | n) <;> rfl
  · exact fun n _ _ _ h => hwait n h.2.1
  · exact fun n _ _ _ h => hwait n h.2.1

/-- One step of a waiting core, with 3 Ticks in its turn. -/
theorem witness_run_of_steps :
    ∃ states : Nat → State, (∀ j, j < 1 → step (states j) = .next (states (j + 1)) ∧ (states j).fault = none) ∧
      (∀ j x, j < 1 → ¬ Executes (states j) (.ldDelay x)) ∧ (∀ j x, j < 1 → ¬ Executes (states j) (.ldSound x)) ∧
      ((List.range 1).map (fun j => (states j).nextTurn.ticks)).sum = 3 :=
  ⟨fun j => match j with
      | 0 => { waitingAt 5 with inputs := [{ ticks := 3, sample := (turn 0 0 0).sample }] }
      | _ + 1 => { waitingAt 2 with inputs := [], clock := 1 },
    fun j hj => by obtain rfl : j = 0 := by omega
                   exact ⟨rfl, rfl⟩,
    fun j x hj h => by obtain rfl : j = 0 := by omega
                       exact absurd h.2.1 (by decide),
    fun j x hj h => by obtain rfl : j = 0 := by omega
                       exact absurd h.2.1 (by decide),
    rfl⟩

end Sys2Proof.Tests
end

section
/-! PROOF. What an instruction does with the inputs of its Step (00_scope.md R20, 10_state.md R51). Supplying other inputs
commutes with every operation of the model that does not read `now`; an instruction built over such operations ignores the
inputs. -/

namespace Sys2Proof.Machine

/-! ## Other inputs for the Step being executed -/

/-- The same state with other inputs for the Step being executed. -/
def withSample (inp : Sample) (s : State) : State := { s with now := inp }

@[simp] theorem withSample_index (inp : Sample) (s : State) : (withSample inp s).index = s.index := rfl
@[simp] theorem withSample_params (inp : Sample) (s : State) : (withSample inp s).params = s.params := rfl

/-- An operation that neither reads nor writes the inputs: it does the same to a state with other ones. -/
def KeepsSampleApart (op : State → State) : Prop :=
  ∀ (s : State) (inp : Sample), op (withSample inp s) = withSample inp (op s)

/-! ## The shared operations -/

/-- The pc write that ends an instruction does not read the inputs. -/
theorem KeepsSampleApart.advance {op : State → State} (h : KeepsSampleApart op) (n : Nat) :
    KeepsSampleApart (fun s => (op s).advance n) :=
  fun s inp => congrArg (fun t : State => t.advance n) (h s inp)

/-- An operation that branches on a condition the inputs have no part in. -/
theorem KeepsSampleApart.ite {c : State → Prop} [DecidablePred c] {yes no : State → State}
    (hc : ∀ s inp, c (withSample inp s) ↔ c s) (hyes : KeepsSampleApart yes) (hno : KeepsSampleApart no) :
    KeepsSampleApart (fun s => if c s then yes s else no s) := by
  intro s inp
  by_cases h : c s
  · simp only [hc, h, if_true, hyes s inp]
  · simp only [hc, h, if_false, hno s inp]

/-- The range check looks at I alone, and an OutOfBounds fault records no input. -/
theorem withRange_keepsSampleApart {effect : State → State} (h : KeepsSampleApart effect) (len : Nat) (i : Instr) :
    KeepsSampleApart (fun s => withRange len i s effect) := by
  intro s inp
  simp only [withRange, withSample_index]
  cases checkRange s.index len with
  | none => exact h s inp
  | some addr => rfl

theorem flagOp_keepsSampleApart (f r : Byte → Byte → Byte) (x y : Reg) : KeepsSampleApart (flagOp f r x y) := by
  intro s inp
  simp only [flagOp, withSample_params]
  cases s.params.flagOrder with
  | sequential | flagThenResult | resultThenFlag => rfl

theorem indexOp_keepsSampleApart (x : Reg) : KeepsSampleApart (indexOp x) := by
  intro s inp
  simp only [indexOp, withSample_params]
  cases s.params.flagOrder with
  | sequential | flagThenResult | resultThenFlag => rfl

/-! ## Instructions -/

/-- Executing `i` does the same whatever the inputs of the Step are. -/
def IgnoresSample (i : Instr) : Prop :=
  ∀ (s t : State) (inp : Sample), exec i s = .next t → exec i (withSample inp s) = .next (withSample inp t)

/-- An instruction that is one operation ignores the inputs if the operation does. -/
theorem IgnoresSample.of_exec {i : Instr} {op : State → State} (hop : KeepsSampleApart op)
    (hexec : ∀ s, exec i s = .next (op s)) : IgnoresSample i := by
  intro s t inp h
  obtain rfl : op s = t := Host.Outcome.next.inj ((hexec s).symm.trans h)
  rw [hexec, hop s inp]

theorem ret_ignoresSample : IgnoresSample .ret :=
  .of_exec (.ite (c := fun s => s.sp = 0) (fun _ _ => Iff.rfl) (fun _ _ => rfl) (fun _ _ => rfl)) fun _ => rfl

theorem call_ignoresSample (nnn : BitVec 12) : IgnoresSample (.call nnn) :=
  .of_exec (.ite (c := fun s => s.sp = 16) (fun _ _ => Iff.rfl) (fun _ _ => rfl) (fun _ _ => rfl)) fun _ => rfl

/-- Every instruction but Cxkk, Ex9E and ExA1 ignores the inputs: most are written over plain updates, the others over one of
the operations above. -/
theorem exec_ignoresSample {i : Instr} (hrnd : ∀ x kk, i ≠ .rnd x kk) (hskp : ∀ x, i ≠ .skp x)
    (hsknp : ∀ x, i ≠ .sknp x) : IgnoresSample i := by
  cases i with
  | rnd x kk => exact absurd rfl (hrnd x kk)
  | skp x => exact absurd rfl (hskp x)
  | sknp x => exact absurd rfl (hsknp x)
  | ret => exact ret_ignoresSample
  | call nnn => exact call_ignoresSample nnn
  | addReg x y | subReg x y | shrReg x y | subnReg x y | shlReg x y =>
    exact .of_exec ((flagOp_keepsSampleApart _ _ x y).advance 2) fun _ => rfl
  | addIndex x => exact .of_exec ((indexOp_keepsSampleApart x).advance 2) fun _ => rfl
  | drw _ _ _ | ldBcd _ | storeRegs _ | loadRegs _ =>
    exact .of_exec (withRange_keepsSampleApart (fun _ _ => rfl) _ _) fun _ => rfl
  | cls | jp _ | seByte _ _ | sneByte _ _ | seReg _ _ | sneReg _ _ | ldByte _ _ | addByte _ _ | ldReg _ _ | orReg _ _
  | andReg _ _ | xorReg _ _ | ldIndex _ | jpV0 _ | ldFromDelay _ | ldKey _ | ldDelay _ | ldSound _ | ldFont _ =>
    exact .of_exec (fun _ _ => rfl) fun _ => rfl

/-- Settles O29: supplying other inputs commutes with the execution of every instruction but the three that read them. -/
theorem otherInstructionsIgnoreTheInputs : Obligations.OtherInstructionsIgnoreTheInputs := by
  unfold Obligations.OtherInstructionsIgnoreTheInputs
  intro i s t inp hrnd hskp hsknp h
  exact exec_ignoresSample hrnd hskp hsknp s t inp h

end Sys2Proof.Machine
end

section
/-! PROOF. What one step can do, said once (30_encoding.md R86, 60_exceptions.md R221): every claim about a whole step below
splits on `step_cases`. -/

namespace Sys2Proof.Machine

open Sys2Proof.Claims

/-- The next Step executes `i` exactly when the core is neither halted nor waiting and the word at pc decodes to `i`. -/
theorem executes_iff (s : State) (i : Instr) :
    Executes s i ↔
      s.fault = none ∧ s.wait = none ∧ fetchCheck s = none ∧ decodeWord (fetchWord s) = some i := by
  rw [Executes, fetchCheck_eq_none_iff, fetchWord, Memory.readWord, decodeBytes]
  cases decodeWord (joinBytes (s.mem.read s.pc.toNat) (s.mem.read (s.pc.toNat + 1))) <;> simp

/-- No two instructions are executed by the same Step. -/
theorem executes_unique {s : State} {i j : Instr} (hi : Executes s i) (hj : Executes s j) : i = j := by
  obtain ⟨-, -, -, hi⟩ := (executes_iff s i).1 hi
  obtain ⟨-, -, -, hj⟩ := (executes_iff s j).1 hj
  exact Option.some.inj (hi.symm.trans hj)

/-- After the scheduler's part of the turn, a halted core does nothing, a waiting one polls, and any other raises a fault of
the fetch or the decoder or executes one instruction. -/
theorem step_cases {s t : State} (h : step s = .next t) :
    (s.fault ≠ none ∧ t = beginStep s) ∨
    (s.fault = none ∧ ∃ x, s.wait = some x ∧ t = waitPoll x (beginStep s)) ∨
    (s.fault = none ∧ s.wait = none ∧ ∃ cause opcode addr, t = raiseFault cause opcode addr (beginStep s)) ∨
    ∃ i, Executes s i ∧ exec i (beginStep s) = .next t := by
  have next {u : State} (hu : stepEvent (beginStep s) = .next u) : t = u :=
    Host.Outcome.next.inj (h.symm.trans hu)
  obtain ⟨hf, hu⟩ | ⟨hf, x, hw, hu⟩ | ⟨hf, hw, addr, -, hu⟩ | ⟨hf, hw, -, -, hu⟩ | ⟨hf, hw, hc, i, hd, hu⟩ :=
    stepEvent_cases (beginStep s)
  · exact .inl ⟨hf, next hu⟩
  · exact .inr (.inl ⟨hf, x, hw, next hu⟩)
  · exact .inr (.inr (.inl ⟨hf, hw, _, _, _, next hu⟩))
  · exact .inr (.inr (.inl ⟨hf, hw, _, _, _, next hu⟩))
  · exact .inr (.inr (.inr ⟨i, (executes_iff s i).2 ⟨hf, hw, hc, hd⟩, hu.symm.trans h⟩))

end Sys2Proof.Machine
end

section
/-! PROOF. Every step keeps the invariant. `Ready` is what the invariant gives an instruction that was fetched: the updates of
the state keep it, and the write of the pc (or a fault, or the key wait) that ends the instruction leads back to `Inv`. -/

namespace Sys2Proof.Machine

/-- The invariant of a core that is executing an instruction: it was fetched, so pc is at most 0xFFE (30_encoding.md R80), and
the core neither waits nor is halted. -/
structure Ready (s : State) : Prop where
  memory : Memory.wf s.mem
  sp : s.sp.toNat ≤ 16
  stack : ∀ j : Fin 16, (s.stackAt j.val).toNat ≤ 0x1000
  pc : s.pc.toNat ≤ 0xFFE
  wait : s.wait = none
  fault : s.fault = none

variable {s : State}

/-! ## Updates that keep `Ready` -/

theorem Ready.setReg (h : Ready s) (r : Reg) (b : Byte) : Ready (s.setReg r b) :=
  ⟨h.memory, h.sp, h.stack, h.pc, h.wait, h.fault⟩

theorem Ready.setRegs (h : Ready s) (v : Vector Byte 16) : Ready (s.setRegs v) :=
  ⟨h.memory, h.sp, h.stack, h.pc, h.wait, h.fault⟩

theorem Ready.setIndex (h : Ready s) (a : Word) : Ready (s.setIndex a) :=
  ⟨h.memory, h.sp, h.stack, h.pc, h.wait, h.fault⟩

theorem Ready.setDt (h : Ready s) (b : Byte) : Ready (s.setDt b) :=
  ⟨h.memory, h.sp, h.stack, h.pc, h.wait, h.fault⟩

theorem Ready.setSt (h : Ready s) (b : Byte) : Ready (s.setSt b) :=
  ⟨h.memory, h.sp, h.stack, h.pc, h.wait, h.fault⟩

theorem Ready.setFb (h : Ready s) (fb : FrameBuffer) : Ready (s.setFb fb) :=
  ⟨h.memory, h.sp, h.stack, h.pc, h.wait, h.fault⟩

theorem Ready.writeBytes (h : Ready s) (a : Nat) (bs : List Byte) : Ready (s.setMem (s.mem.writeBytes a bs)) :=
  ⟨Memory.writeBytes_wf h.memory a bs, h.sp, h.stack, h.pc, h.wait, h.fault⟩

theorem Ready.flagOp (h : Ready s) (f r : Byte → Byte → Byte) (x y : Reg) : Ready (flagOp f r x y s) := by
  obtain ⟨c, hc⟩ | ⟨c, hc⟩ := flagOp_cases f r x y s <;> rw [hc] <;> exact (h.setReg _ _).setReg _ _

theorem Ready.indexOp (h : Ready s) (x : Reg) : Ready (indexOp x s) := by
  obtain ⟨a, ha⟩ := indexOp_cases x s
  rw [ha]
  exact (h.setReg _ _).setIndex a

/-- A return address is at most 0x1000, since the call was fetched at 0xFFE or below (10_state.md R38). -/
theorem Ready.push (h : Ready s) (hsp : s.sp ≠ 16) : Ready (s.push (s.pc + 2)) where
  memory := h.memory
  sp := by
    have := h.sp
    rw [push_sp]
    bv_omega
  stack j := by
    have := h.pc
    rw [stackAt_push]
    split
    · bv_omega
    · exact h.stack j
  pc := h.pc
  wait := h.wait
  fault := h.fault

theorem Ready.pop_sp_lt (h : Ready s) (hsp : s.sp ≠ 0) : s.pop.sp.toNat < 16 := by
  have := h.sp
  rw [pop_sp]
  bv_omega

theorem Ready.pop (h : Ready s) (hsp : s.sp ≠ 0) : Ready s.pop :=
  ⟨h.memory, (h.pop_sp_lt hsp).le, h.stack, h.pc, h.wait, h.fault⟩

/-! ## Ends of an instruction, which lead back to `Inv` -/

/-- A fault leaves a core that is halted at its pc. -/
theorem Inv.raiseFault (h : Inv s) (hw : s.wait = none) (cause : Cause) (opcode addr : Option Word) :
    Inv (raiseFault cause opcode addr s) where
  memory := h.memory
  sp := h.sp
  pc := h.pc
  stack := h.stack
  waiting _ hx := absurd (hw.symm.trans hx) nofun
  faultPc r hr := by
    obtain rfl := Option.some.inj hr
    rfl

theorem Ready.inv (h : Ready s) : Inv s where
  memory := h.memory
  sp := h.sp
  pc := h.pc.trans (by decide)
  stack := h.stack
  waiting _ hx := absurd (h.wait.symm.trans hx) nofun
  faultPc _ hr := absurd (h.fault.symm.trans hr) nofun

theorem Ready.raiseFault (h : Ready s) (cause : Cause) (opcode addr : Option Word) :
    Inv (raiseFault cause opcode addr s) :=
  h.inv.raiseFault h.wait cause opcode addr

theorem Ready.setPc (h : Ready s) {a : Word} (ha : a.toNat ≤ 0x10FE) : Inv (s.setPc a) :=
  { h.inv with pc := ha, waiting := fun _ hx => absurd (h.wait.symm.trans hx) nofun,
               faultPc := fun _ hr => absurd (h.fault.symm.trans hr) nofun }

theorem Ready.advance (h : Ready s) {n : Nat} (hn : n ≤ 4) : Inv (s.advance n) := by
  refine h.setPc ?_
  have := h.pc
  rw [BitVec.toNat_add, BitVec.toNat_ofNat]
  omega

theorem Ready.skipIf (h : Ready s) (taken : Bool) : Inv (s.skipIf taken) :=
  h.advance (by cases taken <;> decide)

theorem Ready.setWait (h : Ready s) (x : Reg) : Inv (s.setWait (some x)) :=
  { h.inv with waiting := fun _ _ => ⟨h.pc, h.fault⟩ }

theorem Ready.withRange (h : Ready s) {effect : State → State} (heffect : Inv (effect s)) (len : Nat) (i : Instr) :
    Inv (withRange len i s effect) := by
  obtain ⟨-, hok⟩ | ⟨addr, -, hfault⟩ := withRange_cases len i s effect
  · rwa [hok]
  · rw [hfault]
    exact h.raiseFault _ _ _

theorem Ready.skipOnKey (h : Ready s) (x : Reg) (i : Instr) (wanted : Bool) : Inv (skipOnKey x i wanted s) := by
  obtain ⟨-, hfault⟩ | ⟨k, -, hskip⟩ := skipOnKey_cases x i wanted s
  · rw [hfault]
    exact h.raiseFault _ _ _
  · rw [hskip]
    exact h.skipIf _

/-! ## The pc values that are no increment (10_state.md R38) -/

theorem zext16_le (nnn : BitVec 12) : (zext16 nnn).toNat ≤ 0x10FE := by
  have := nnn.isLt
  rw [zext16, BitVec.toNat_setWidth]
  omega

/-- Bnnn's largest target, 0xFF + 0xFFF, is the largest pc. -/
theorem offsetTarget_le (v0 : Byte) (nnn : BitVec 12) : (offsetTarget v0 nnn).toNat ≤ 0x10FE := by
  have := v0.isLt
  have := nnn.isLt
  rw [offsetTarget, BitVec.toNat_ofNat]
  omega

/-! ## Instructions and the step -/

theorem Ready.ret (h : Ready s) : ∃ t, exec .ret s = .next t ∧ Inv t := by
  refine ⟨_, rfl, ?_⟩
  split
  · exact h.raiseFault _ _ _
  · rename_i hsp
    exact (h.pop hsp).setPc ((h.stack ⟨s.pop.sp.toNat, h.pop_sp_lt hsp⟩).trans (by decide))

theorem Ready.call (h : Ready s) (nnn : BitVec 12) : ∃ t, exec (.call nnn) s = .next t ∧ Inv t := by
  refine ⟨_, rfl, ?_⟩
  split
  · exact h.raiseFault _ _ _
  · rename_i hsp
    exact (h.push hsp).setPc (zext16_le nnn)

/-- An instruction that was fetched in a state of the invariant leads to a state of the invariant. -/
theorem Ready.exec (h : Ready s) (i : Instr) : ∃ t, exec i s = .next t ∧ Inv t := by
  have two_le : 2 ≤ 4 := by decide
  cases i with
  | ret => exact h.ret
  | call nnn => exact h.call nnn
  | cls => exact ⟨_, rfl, (h.setFb _).advance two_le⟩
  | jp nnn => exact ⟨_, rfl, h.setPc (zext16_le nnn)⟩
  | jpV0 nnn => exact ⟨_, rfl, h.setPc (offsetTarget_le _ nnn)⟩
  | seByte _ _ | sneByte _ _ | seReg _ _ | sneReg _ _ => exact ⟨_, rfl, h.skipIf _⟩
  | ldByte _ _ | addByte _ _ | ldReg _ _ | orReg _ _ | andReg _ _ | xorReg _ _ | rnd _ _ | ldFromDelay _ =>
    exact ⟨_, rfl, (h.setReg _ _).advance two_le⟩
  | addReg x y | subReg x y | shrReg x y | subnReg x y | shlReg x y =>
    exact ⟨_, rfl, (h.flagOp _ _ x y).advance two_le⟩
  | ldIndex _ | ldFont _ => exact ⟨_, rfl, (h.setIndex _).advance two_le⟩
  | addIndex x => exact ⟨_, rfl, (h.indexOp x).advance two_le⟩
  | drw _ _ _ => exact ⟨_, rfl, h.withRange (((h.setFb _).setReg _ _).advance two_le) _ _⟩
  | ldBcd _ | storeRegs _ => exact ⟨_, rfl, h.withRange ((h.writeBytes _ _).advance two_le) _ _⟩
  | loadRegs _ => exact ⟨_, rfl, h.withRange ((h.setRegs _).advance two_le) _ _⟩
  | skp _ | sknp _ => exact ⟨_, rfl, h.skipOnKey _ _ _⟩
  | ldKey x => exact ⟨_, rfl, h.setWait x⟩
  | ldDelay _ => exact ⟨_, rfl, (h.setDt _).advance two_le⟩
  | ldSound _ => exact ⟨_, rfl, (h.setSt _).advance two_le⟩

/-- The Ticks of a turn and the sampling of its inputs touch nothing the invariant speaks of. -/
theorem Inv.beginStep (h : Inv s) : Inv (beginStep s) :=
  ⟨h.memory, h.sp, h.pc, h.stack, h.waiting, h.faultPc⟩

/-- A poll that finds a key goes on from an Fx0A that was fetched (44_keys_timers.md R194, R195). -/
theorem Inv.waitPoll (h : Inv s) {x : Reg} (hw : s.wait = some x) : Inv (waitPoll x s) := by
  obtain ⟨hpc, hf⟩ := h.waiting x hw
  obtain ⟨-, hidle⟩ | ⟨-, hkey⟩ := waitPoll_cases s x
  · rwa [hidle]
  · rw [hkey]
    have ready : Ready ((s.setReg x (BitVec.ofNat 8 (chooseKey s.now))).setWait none) :=
      ⟨h.memory, h.sp, h.stack, hpc, rfl, hf⟩
    exact ready.advance (by decide)

/-- An instruction is executed only where its fetch succeeded. -/
theorem Inv.ready (h : Inv s) {i : Instr} (hi : Claims.Executes s i) : Ready (Machine.beginStep s) := by
  obtain ⟨hf, hw, hpc, -⟩ := hi
  exact ⟨h.memory, h.sp, h.stack, Nat.le_of_lt_succ (Nat.lt_sub_of_add_lt hpc), hw, hf⟩

/-- Settles O18: the four things a step can do (`step_cases`) each keep the invariant. -/
theorem stepKeepsInvariant : Obligations.StepKeepsInvariant := by
  unfold Obligations.StepKeepsInvariant
  intro s t h hstep
  have hb := h.beginStep
  obtain ⟨-, rfl⟩ | ⟨-, x, hw, rfl⟩ | ⟨-, hw, cause, opcode, addr, rfl⟩ | ⟨i, hi, hexec⟩ := step_cases hstep
  · exact hb
  · exact hb.waitPoll hw
  · exact hb.raiseFault hw cause opcode addr
  · obtain ⟨u, hu, hinv⟩ := (h.ready hi).exec i
    obtain rfl := Host.Outcome.next.inj (hexec.symm.trans hu)
    exact hinv

end Sys2Proof.Machine
end

section
/-! PROOF. Who writes what (10_state.md R34 to R52). `Writes i sp` lists the parts that instruction `i` may write when it completes;
a fault writes its record and clears `fb_changed`. A frame is carried through the updates an instruction is written over, and
each rule about a part is read off `step_writer`. -/

namespace Sys2Proof.Machine

open Sys2Proof.Claims

/-! ## Frames through the updates of the state -/

section Frames

variable {c : Part → Prop} {s t : State}

theorem Frame.refl (c : Part → Prop) (s : State) : Frame c s s := by
  intro p _
  cases p with
  | environment => exact ⟨rfl, rfl, rfl, rfl⟩
  | _ => rfl

theorem Frame.setReg (h : Frame c s t) {r : Reg} (hr : c (.reg r)) (b : Byte) : Frame c s (t.setReg r b) := by
  intro p hp
  cases p with
  | reg q =>
    have hne : q ≠ r := by
      rintro rfl
      exact hp hr
    exact (reg_setReg_of_ne t hne b).trans (h _ hp)
  | _ => exact h _ hp

theorem Frame.setRegs (h : Frame c s t) {v : Vector Byte 16} (hv : ∀ q : Reg, ¬ c (.reg q) → v[q.val] = t.reg q) :
    Frame c s (t.setRegs v) := by
  intro p hp
  cases p with
  | reg q => exact (hv q hp).trans (h _ hp)
  | _ => exact h _ hp

theorem Frame.setIndex (h : Frame c s t) (hc : c .index) (a : Word) : Frame c s (t.setIndex a) := by
  intro p hp
  cases p with
  | index => exact absurd hc hp
  | _ => exact h _ hp

theorem Frame.setPc (h : Frame c s t) (hc : c .pc) (a : Word) : Frame c s (t.setPc a) := by
  intro p hp
  cases p with
  | pc => exact absurd hc hp
  | _ => exact h _ hp

theorem Frame.advance (h : Frame c s t) (hc : c .pc) (n : Nat) : Frame c s (t.advance n) :=
  h.setPc hc _

theorem Frame.setDt (h : Frame c s t) (hc : c .dt) (b : Byte) : Frame c s (t.setDt b) := by
  intro p hp
  cases p with
  | dt => exact absurd hc hp
  | _ => exact h _ hp

theorem Frame.setSt (h : Frame c s t) (hc : c .st) (b : Byte) : Frame c s (t.setSt b) := by
  intro p hp
  cases p with
  | st => exact absurd hc hp
  | _ => exact h _ hp

theorem Frame.setMem (h : Frame c s t) (hc : ∀ a, c (.byte a)) (m : Memory) : Frame c s (t.setMem m) := by
  intro p hp
  cases p with
  | byte a => exact absurd (hc a) hp
  | _ => exact h _ hp

theorem Frame.setWait (h : Frame c s t) (hc : c .wait) (w : Option Reg) : Frame c s (t.setWait w) := by
  intro p hp
  cases p with
  | wait => exact absurd hc hp
  | _ => exact h _ hp

theorem Frame.setFb (h : Frame c s t) (hcell : ∀ cx cy, c (.cell cx cy)) (hsignal : c .fbChanged) (fb : FrameBuffer) :
    Frame c s (t.setFb fb) := by
  intro p hp
  cases p with
  | cell cx cy => exact absurd (hcell cx cy) hp
  | fbChanged => exact absurd hsignal hp
  | _ => exact h _ hp

theorem Frame.push (h : Frame c s t) (hsp : c .sp) (hentry : ∀ j : Fin 16, j.val = t.sp.toNat → c (.stackEntry j))
    (a : Word) : Frame c s (t.push a) := by
  intro p hp
  cases p with
  | sp => exact absurd hsp hp
  | stackEntry j =>
    have hne : j.val ≠ t.sp.toNat := fun hj => hp (hentry j hj)
    exact ((stackAt_push t a j).trans (if_neg hne)).trans (h _ hp)
  | _ => exact h _ hp

theorem Frame.pop (h : Frame c s t) (hc : c .sp) : Frame c s t.pop := by
  intro p hp
  cases p with
  | sp => exact absurd hc hp
  | _ => exact h _ hp

/-- A fault writes its record and `fb_changed`, and nothing else (60_exceptions.md R214). -/
theorem raiseFault_frame (cause : Cause) (opcode addr : Option Word) (s : State) :
    Frame (fun p => p = .fault ∨ p = .fbChanged) s (raiseFault cause opcode addr s) := by
  intro p hp
  cases p with
  | fault => exact absurd (.inl rfl) hp
  | fbChanged => exact absurd (.inr rfl) hp
  | environment => exact ⟨rfl, rfl, rfl, rfl⟩
  | _ => rfl

/-- A poll writes the register waited for, ends the wait and moves the pc (44_keys_timers.md R195). -/
theorem waitPoll_frame (x : Reg) (s : State) :
    Frame (fun p => p = .reg x ∨ p = .wait ∨ p = .pc) s (waitPoll x s) := by
  obtain ⟨-, hidle⟩ | ⟨-, hkey⟩ := waitPoll_cases s x
  · rw [hidle]
    exact .refl _ s
  · rw [hkey]
    exact (((Frame.refl _ s).setReg (.inl rfl) _).setWait (.inr (.inl rfl)) _).advance (.inr (.inr rfl)) 2

end Frames

/-! ## What an instruction writes -/

/-- 00E0 or Dxyn (10_state.md R48). -/
def Draws (i : Instr) : Prop := i = .cls ∨ ∃ x y n, i = .drw x y n

/-- The parts that `i` may write if it completes, in a core with this SP. Memory is not told apart by address here. -/
def Writes (i : Instr) (sp : Byte) : Part → Prop
  | .reg r => MayWriteRegister r i
  | .index => (∃ nnn, i = .ldIndex nnn) ∨ (∃ x, i = .addIndex x) ∨ ∃ x, i = .ldFont x
  | .pc => True
  | .sp => (∃ nnn, i = .call nnn) ∨ i = .ret
  | .stackEntry j => j.val = sp.toNat ∧ ∃ nnn, i = .call nnn
  | .dt => ∃ x, i = .ldDelay x
  | .st => ∃ x, i = .ldSound x
  | .byte _ => ∃ x, i = .ldBcd x ∨ i = .storeRegs x
  | .cell _ _ | .fbChanged => Draws i
  | .wait => ∃ x, i = .ldKey x
  | .fault | .environment => False

/-- How an instruction ends: it raises a fault that names it, or it completes and writes its own parts only. -/
def FaultsOrWrites (i : Instr) (s t : State) : Prop :=
  (∃ cause addr, t = raiseFault cause (some (encode i)) addr s) ∨ Frame (Writes i s.sp) s t

variable {s t : State} {i : Instr}

theorem withRange_faultsOrWrites {effect : State → State} (h : Frame (Writes i s.sp) s (effect s)) (len : Nat) :
    FaultsOrWrites i s (withRange len i s effect) := by
  obtain ⟨-, hok⟩ | ⟨addr, -, hfault⟩ := withRange_cases len i s effect
  · rw [hok]
    exact .inr h
  · exact .inl ⟨_, _, hfault⟩

theorem skipOnKey_faultsOrWrites (x : Reg) (i : Instr) (wanted : Bool) (s : State) :
    FaultsOrWrites i s (skipOnKey x i wanted s) := by
  obtain ⟨-, hfault⟩ | ⟨k, -, hskip⟩ := skipOnKey_cases x i wanted s
  · exact .inl ⟨_, _, hfault⟩
  · rw [hskip]
    exact .inr ((Frame.refl _ s).advance trivial _)

theorem flagOp_frame {c : Part → Prop} {x : Reg} (hx : c (.reg x)) (hvf : c (.reg vf)) (f r : Byte → Byte → Byte) (y : Reg)
    (s : State) : Frame c s (flagOp f r x y s) := by
  obtain ⟨b, hb⟩ | ⟨b, hb⟩ := flagOp_cases f r x y s
  · rw [hb]
    exact ((Frame.refl _ s).setReg hvf _).setReg hx b
  · rw [hb]
    exact ((Frame.refl _ s).setReg hx b).setReg hvf _

theorem indexOp_frame {c : Part → Prop} (hvf : c (.reg vf)) (hindex : c .index) (x : Reg) (s : State) :
    Frame c s (indexOp x s) := by
  obtain ⟨a, ha⟩ := indexOp_cases x s
  rw [ha]
  exact ((Frame.refl _ s).setReg hvf _).setIndex hindex a

/-- Fx65 loads the registers up to Vx and keeps the others (43_index_memory.md R175). -/
theorem loadPrefix_readBytes_of_gt (s : State) {x q : Reg} (hq : ¬ q.val ≤ x.val) :
    (loadPrefix s.v 0 (s.mem.readBytes s.index.toNat (x.val + 1)))[q.val] = s.reg q := by
  rw [loadPrefix_getElem, dif_neg]
  · rfl
  · rw [Memory.readBytes_length]
    omega

theorem ret_faultsOrWrites (s : State) : ∃ t, exec .ret s = .next t ∧ FaultsOrWrites .ret s t := by
  refine ⟨_, rfl, ?_⟩
  split
  · exact .inl ⟨_, _, rfl⟩
  · exact .inr (((Frame.refl _ s).pop (.inr rfl)).setPc trivial _)

theorem call_faultsOrWrites (nnn : BitVec 12) (s : State) :
    ∃ t, exec (.call nnn) s = .next t ∧ FaultsOrWrites (.call nnn) s t := by
  refine ⟨_, rfl, ?_⟩
  split
  · exact .inl ⟨_, _, rfl⟩
  · exact .inr (((Frame.refl _ s).push (.inl ⟨nnn, rfl⟩) (fun _ hj => ⟨hj, nnn, rfl⟩) _).setPc trivial _)

/-- Every instruction ends in a fault or writes the parts `Writes` lists for it. -/
theorem exec_faultsOrWrites (i : Instr) (s : State) : ∃ t, exec i s = .next t ∧ FaultsOrWrites i s t := by
  have same : Frame (Writes i s.sp) s s := .refl _ s
  cases i with
  | ret => exact ret_faultsOrWrites s
  | call nnn => exact call_faultsOrWrites nnn s
  | cls => exact ⟨_, rfl, .inr ((same.setFb (fun _ _ => .inl rfl) (.inl rfl) _).advance trivial 2)⟩
  | jp _ | jpV0 _ => exact ⟨_, rfl, .inr (same.setPc trivial _)⟩
  | seByte _ _ | sneByte _ _ | seReg _ _ | sneReg _ _ => exact ⟨_, rfl, .inr (same.advance trivial _)⟩
  | ldByte x _ | addByte x _ | ldReg x _ | orReg x _ | andReg x _ | xorReg x _ | rnd x _ | ldFromDelay x =>
    exact ⟨_, rfl, .inr ((same.setReg rfl _).advance trivial 2)⟩
  | addReg x y | subReg x y | shrReg x y | subnReg x y | shlReg x y =>
    exact ⟨_, rfl, .inr ((flagOp_frame (.inl rfl) (.inr rfl) _ _ y s).advance trivial 2)⟩
  | ldIndex nnn => exact ⟨_, rfl, .inr ((same.setIndex (.inl ⟨nnn, rfl⟩) _).advance trivial 2)⟩
  | ldFont x => exact ⟨_, rfl, .inr ((same.setIndex (.inr (.inr ⟨x, rfl⟩)) _).advance trivial 2)⟩
  | addIndex x =>
    exact ⟨_, rfl, .inr
      ((indexOp_frame (c := Writes (.addIndex x) s.sp) rfl (.inr (.inl ⟨x, rfl⟩)) x s).advance trivial 2)⟩
  | drw x y n =>
    have draws : Draws (.drw x y n) := .inr ⟨x, y, n, rfl⟩
    exact ⟨_, rfl, withRange_faultsOrWrites
      (((same.setFb (fun _ _ => draws) draws _).setReg rfl _).advance trivial 2) _⟩
  | ldBcd x =>
    exact ⟨_, rfl, withRange_faultsOrWrites ((same.setMem (fun _ => ⟨x, .inl rfl⟩) _).advance trivial 2) _⟩
  | storeRegs x =>
    exact ⟨_, rfl, withRange_faultsOrWrites ((same.setMem (fun _ => ⟨x, .inr rfl⟩) _).advance trivial 2) _⟩
  | loadRegs x =>
    exact ⟨_, rfl, withRange_faultsOrWrites
      ((same.setRegs fun _ hq => loadPrefix_readBytes_of_gt s hq).advance trivial 2) _⟩
  | skp x => exact ⟨_, rfl, skipOnKey_faultsOrWrites x _ true s⟩
  | sknp x => exact ⟨_, rfl, skipOnKey_faultsOrWrites x _ false s⟩
  | ldKey x => exact ⟨_, rfl, .inr (same.setWait ⟨x, rfl⟩ _)⟩
  | ldDelay x => exact ⟨_, rfl, .inr ((same.setDt ⟨x, rfl⟩ _).advance trivial 2)⟩
  | ldSound x => exact ⟨_, rfl, .inr ((same.setSt ⟨x, rfl⟩ _).advance trivial 2)⟩

theorem faultsOrWrites_of_exec (h : exec i s = .next t) : FaultsOrWrites i s t := by
  obtain ⟨u, hu, hends⟩ := exec_faultsOrWrites i s
  obtain rfl := Host.Outcome.next.inj (h.symm.trans hu)
  exact hends

/-- A part that an instruction changes is one it may write, the fault record and `fb_changed` apart. -/
theorem writes_of_exec {p : Part} (h : exec i s = .next t) (hp : ¬ p.same s t) (hfault : ¬ (p = .fault ∨ p = .fbChanged)) :
    Writes i s.sp p := by
  obtain ⟨cause, addr, rfl⟩ | hframe := faultsOrWrites_of_exec h
  · exact absurd (raiseFault_frame cause _ addr s p hfault) hp
  · by_contra hw
    exact hp (hframe p hw)

/-- Settles O25: `writes_of_exec` for the two timers. -/
theorem onlyTwoInstructionsWriteTimers : Obligations.OnlyTwoInstructionsWriteTimers := by
  unfold Obligations.OnlyTwoInstructionsWriteTimers
  intro i s t h
  exact ⟨fun hdt => writes_of_exec (p := .dt) h hdt (by decide), fun hst => writes_of_exec (p := .st) h hst (by decide)⟩

/-! ## What a step writes -/

/-- What the turn does before the Step is out of sight for a part that is not the turn's. -/
theorem same_beginStep_iff {p : Part} (hp : ¬ ByTurn p) (s t : State) : p.same (beginStep s) t ↔ p.same s t := by
  cases p with
  | dt => exact absurd (.inl rfl) hp
  | st => exact absurd (.inr (.inl rfl)) hp
  | fbChanged => exact absurd (.inr (.inr (.inl rfl))) hp
  | environment => exact absurd (.inr (.inr (.inr rfl))) hp
  | _ => exact Iff.rfl

/-- A part that a step changes, the turn's own parts and the fault record apart, is written by the poll of a key wait or by
the instruction the step executes. -/
theorem step_writer {p : Part} (h : step s = .next t) (hp : ¬ p.same s t) (hturn : ¬ ByTurn p) (hfault : p ≠ .fault) :
    (∃ x, s.fault = none ∧ s.wait = some x ∧ (p = .reg x ∨ p = .wait ∨ p = .pc)) ∨
      ∃ i, Executes s i ∧ Writes i s.sp p := by
  have hchanged : ¬ p.same (beginStep s) t := fun hsame => hp ((same_beginStep_iff hturn s t).1 hsame)
  have hrecord : ¬ (p = .fault ∨ p = .fbChanged) := fun hor =>
    hor.elim hfault fun hsignal => hturn (.inr (.inr (.inl hsignal)))
  obtain ⟨-, rfl⟩ | ⟨hf, x, hw, rfl⟩ | ⟨-, -, cause, opcode, addr, rfl⟩ | ⟨i, hi, hexec⟩ := step_cases h
  · exact absurd (Frame.refl (fun _ => False) _ p id) hchanged
  · refine .inl ⟨x, hf, hw, ?_⟩
    by_contra hpoll
    exact hchanged (waitPoll_frame x _ p hpoll)
  · exact absurd (raiseFault_frame cause opcode addr _ p hrecord) hchanged
  · have hwrites := writes_of_exec hexec hchanged hrecord
    exact .inr ⟨i, hi, hwrites⟩

/-- The same for a part that no key wait writes. -/
theorem step_writer_of_not_polled {p : Part} (h : step s = .next t) (hp : ¬ p.same s t) (hturn : ¬ ByTurn p)
    (hfault : p ≠ .fault) (hpolled : ∀ x, ¬ (p = .reg x ∨ p = .wait ∨ p = .pc)) :
    ∃ i, Executes s i ∧ Writes i s.sp p :=
  (step_writer h hp hturn hfault).resolve_left fun ⟨x, _, _, hpoll⟩ => hpolled x hpoll

/-- Settles O20: `step_writer` for a register. -/
theorem onlyListedWritersChangeRegisters : Obligations.OnlyListedWritersChangeRegisters := by
  unfold Obligations.OnlyListedWritersChangeRegisters
  intro s t r h hr
  obtain ⟨x, hf, hw, hpoll⟩ | hexec := step_writer (p := .reg r) h hr (by simp [ByTurn]) nofun
  · obtain rfl : r = x := by simpa using hpoll
    exact .inl ⟨hf, hw⟩
  · exact .inr hexec

/-- Settles O21: `step_writer` for I. -/
theorem onlyThreeInstructionsWriteIndex : Obligations.OnlyThreeInstructionsWriteIndex := by
  unfold Obligations.OnlyThreeInstructionsWriteIndex
  intro s t h hindex
  exact step_writer_of_not_polled (p := .index) h hindex (by simp [ByTurn]) nofun (by simp)

/-- Settles O23: framebuffers that differ do so in a cell, and `step_writer` says who writes a cell. -/
theorem onlyClearAndDrawChangeFramebuffer : Obligations.OnlyClearAndDrawChangeFramebuffer := by
  unfold Obligations.OnlyClearAndDrawChangeFramebuffer
  intro s t h hfb
  have hcell : ∃ cx cy, ¬ (Part.cell cx cy).same s t := by
    by_contra hnone
    exact hfb (fb_ext fun cx cy => not_not.1 fun hcell => hnone ⟨cx, cy, hcell⟩)
  obtain ⟨cx, cy, hcell⟩ := hcell
  exact step_writer_of_not_polled h hcell (by simp [ByTurn]) nofun (by simp)

/-- Settles O24: `step_writer` for SP and for a stack entry. -/
theorem onlyCallAndReturnTouchTheStack : Obligations.OnlyCallAndReturnTouchTheStack := by
  unfold Obligations.OnlyCallAndReturnTouchTheStack
  intro s t h
  constructor
  · intro hsp
    exact step_writer_of_not_polled (p := .sp) h hsp (by simp [ByTurn]) nofun (by simp)
  · intro j hj
    obtain ⟨i, hi, hentry, nnn, rfl⟩ :=
      step_writer_of_not_polled (p := .stackEntry j) h hj (by simp [ByTurn]) nofun (by simp)
    exact ⟨hentry, nnn, hi⟩

/-! ## The `fb_changed` output (10_state.md R52) -/

/-- 00E0 and Dxyn set `fb_changed` unless they end in a fault. -/
theorem fbChanged_of_draws (hdraws : Draws i) (h : exec i s = .next t) (hf : t.fault = none) : t.fbChanged = true := by
  obtain rfl | ⟨x, y, n, rfl⟩ := hdraws
  · obtain rfl := Host.Outcome.next.inj h
    rfl
  · obtain rfl := Host.Outcome.next.inj h
    obtain ⟨-, hok⟩ | ⟨addr, -, hfault⟩ := withRange_cases n.toNat (.drw x y n) s _
    · rw [hok]
      rfl
    · rw [hfault] at hf
      exact absurd hf nofun

/-- An instruction that begins with `fb_changed` 0 ends with 1 exactly if it is 00E0 or Dxyn and raises no fault. -/
theorem exec_fbChanged_iff (h : exec i s = .next t) (hf : s.fault = none) (hbegin : s.fbChanged = false) :
    t.fbChanged = true ↔ t.fault = none ∧ Draws i := by
  obtain ⟨cause, addr, rfl⟩ | hframe := faultsOrWrites_of_exec h
  · simp
  · have hfault : t.fault = none := (hframe .fault id).trans hf
    constructor
    · intro hsignal
      refine ⟨hfault, ?_⟩
      by_contra hdraws
      have hsame : t.fbChanged = s.fbChanged := hframe .fbChanged hdraws
      exact absurd (hsignal.symm.trans (hsame.trans hbegin)) nofun
    · rintro ⟨-, hdraws⟩
      exact fbChanged_of_draws hdraws h hfault

/-- Settles O26: a Step begins with `fb_changed` 0, and of what it can do (`step_cases`) only an instruction sets it. -/
theorem framebufferChangedSignalsClearAndDraw : Obligations.FramebufferChangedSignalsClearAndDraw := by
  unfold Obligations.FramebufferChangedSignalsClearAndDraw
  intro s t h
  obtain ⟨hf, rfl⟩ | ⟨-, x, hw, rfl⟩ | ⟨-, -, cause, opcode, addr, rfl⟩ | ⟨i, hi, hexec⟩ := step_cases h
  · simp [hf]
  · have hsignal : (waitPoll x (beginStep s)).fbChanged = false := waitPoll_frame x _ .fbChanged (by simp)
    simp [hsignal, Executes, hw]
  · simp
  · rw [exec_fbChanged_iff hexec hi.1 rfl]
    refine and_congr_right fun _ => ⟨fun hdraws => ⟨i, hi, hdraws⟩, ?_⟩
    rintro ⟨j, hj, hdraws⟩
    exact executes_unique hi hj ▸ hdraws

end Sys2Proof.Machine
end

section
/-! PROOF. The values VF holds after an instruction that defines a flag (10_state.md R35, 42_alu.md R140). -/

namespace Sys2Proof.Machine

open Sys2Proof.Claims

theorem flagByte_le (b : Bool) : (flagByte b).toNat ≤ 1 := by
  cases b <;> decide

/-- The flag stands in VF unless the result is written over it: X = F, and the flag is not the last write (R140). -/
theorem flagOp_reg_vf {x : Reg} {s : State} (h : x ≠ vf ∨ s.params.flagOrder = .resultThenFlag)
    (f r : Byte → Byte → Byte) (y : Reg) : (flagOp f r x y s).reg vf = f (s.reg x) (s.reg y) := by
  obtain hx | horder := h
  · obtain ⟨c, hc⟩ | ⟨c, hc⟩ := flagOp_cases f r x y s
    · rw [hc, reg_setReg_of_ne _ hx.symm, reg_setReg_self]
    · rw [hc, reg_setReg_self]
  · simp only [flagOp, horder, reg_setReg_self]

/-- The five ALU instructions that define a flag are `FlagOp` over a function that answers flag bytes (R147 to R151). -/
theorem exec_eq_flagOp {x y : Reg} {i : Instr}
    (hi : i ∈ [Instr.addReg x y, .subReg x y, .shrReg x y, .subnReg x y, .shlReg x y]) (s : State) :
    ∃ f r : Byte → Byte → Byte, exec i s = .next ((flagOp f r x y s).advance 2) ∧ ∀ a b, (f a b).toNat ≤ 1 := by
  simp only [List.mem_cons, List.not_mem_nil, or_false] at hi
  obtain rfl | rfl | rfl | rfl | rfl := hi <;> exact ⟨_, _, rfl, fun _ _ => flagByte_le _⟩

theorem exec_flagInstr_reg_vf_le {x y : Reg} {i : Instr} {s t : State}
    (h : x ≠ vf ∨ s.params.flagOrder = .resultThenFlag)
    (hi : i ∈ [Instr.addReg x y, .subReg x y, .shrReg x y, .subnReg x y, .shlReg x y]) (hexec : exec i s = .next t) :
    (t.reg vf).toNat ≤ 1 := by
  obtain ⟨f, r, hflagOp, hflag⟩ := exec_eq_flagOp hi s
  obtain rfl := Host.Outcome.next.inj (hexec.symm.trans hflagOp)
  rw [advance_reg, flagOp_reg_vf h]
  exact hflag _ _

theorem exec_addIndex_reg_vf_le {x : Reg} {s t : State} (hexec : exec (.addIndex x) s = .next t) :
    (t.reg vf).toNat ≤ 1 := by
  obtain rfl := Host.Outcome.next.inj hexec
  obtain ⟨a, ha⟩ := indexOp_cases x s
  rw [advance_reg, ha, setIndex_reg, reg_setReg_self]
  exact flagByte_le _

theorem checkRange_eq_none_of_spriteInRange {s : State} {n : BitVec 4} (h : SpriteInRange s n) :
    checkRange s.index n.toNat = none := by
  rw [checkRange_eq_none_iff]
  exact h.imp_left fun hn => congrArg BitVec.toNat hn

/-- A sprite that is in range is drawn, and VF is the collision flag (40_display.md R103). -/
theorem exec_drw_reg_vf_le {x y : Reg} {n : BitVec 4} {s t : State} (hrange : SpriteInRange s n)
    (hexec : exec (.drw x y n) s = .next t) : (t.reg vf).toNat ≤ 1 := by
  obtain rfl := Host.Outcome.next.inj hexec
  obtain ⟨-, hok⟩ | ⟨addr, haddr, -⟩ := withRange_cases n.toNat (.drw x y n) s _
  · rw [hok, advance_reg, reg_setReg_self]
    exact flagByte_le _
  · rw [checkRange_eq_none_of_spriteInRange hrange] at haddr
    exact absurd haddr nofun

/-- Settles O27: in each of the three alternatives VF is written last, or kept, as a flag byte. -/
theorem flagIsZeroOrOne : Obligations.FlagIsZeroOrOne := by
  unfold Obligations.FlagIsZeroOrOne
  intro s t x y i h hexec
  obtain ⟨hplain, hi⟩ | rfl | ⟨n, hrange, rfl⟩ := h
  · exact exec_flagInstr_reg_vf_le hplain hi hexec
  · exact exec_addIndex_reg_vf_le hexec
  · exact exec_drw_reg_vf_le hrange hexec

end Sys2Proof.Machine
end

section
/-! PROOF. A step is the Step event on the state vector (10_state.md R30, R31). The listed turns and the clock are read by
`beginStep` only: supplying others commutes with everything a Step event does after it. -/

namespace Sys2Proof.Machine

/-- The same state with other turns listed and another clock. -/
def withSchedule (inputs : List Turn) (clock : Nat) (s : State) : State := { s with inputs := inputs, clock := clock }

section Schedule

variable (inputs : List Turn) (clock : Nat) (s : State)

@[simp] theorem withSchedule_toStateVector : (withSchedule inputs clock s).toStateVector = s.toStateVector := rfl
@[simp] theorem withSchedule_fbChanged : (withSchedule inputs clock s).fbChanged = s.fbChanged := rfl
@[simp] theorem withSchedule_params : (withSchedule inputs clock s).params = s.params := rfl
@[simp] theorem withSchedule_now : (withSchedule inputs clock s).now = s.now := rfl
@[simp] theorem withSchedule_reg (q : Reg) : (withSchedule inputs clock s).reg q = s.reg q := rfl
@[simp] theorem withSchedule_halted : (withSchedule inputs clock s).halted = s.halted := rfl
@[simp] theorem withSchedule_fetchCheck : fetchCheck (withSchedule inputs clock s) = fetchCheck s := rfl
@[simp] theorem withSchedule_fetchWord : fetchWord (withSchedule inputs clock s) = fetchWord s := rfl

/-! ## The shared operations -/

theorem flagOp_withSchedule (f r : Byte → Byte → Byte) (x y : Reg) :
    flagOp f r x y (withSchedule inputs clock s) = withSchedule inputs clock (flagOp f r x y s) := by
  simp only [flagOp, withSchedule_params]
  cases s.params.flagOrder with
  | sequential | flagThenResult | resultThenFlag => rfl

theorem indexOp_withSchedule (x : Reg) :
    indexOp x (withSchedule inputs clock s) = withSchedule inputs clock (indexOp x s) := by
  simp only [indexOp, withSchedule_params]
  cases s.params.flagOrder with
  | sequential | flagThenResult | resultThenFlag => rfl

theorem withRange_withSchedule {effect : State → State} (len : Nat) (i : Instr)
    (h : effect (withSchedule inputs clock s) = withSchedule inputs clock (effect s)) :
    withRange len i (withSchedule inputs clock s) effect = withSchedule inputs clock (withRange len i s effect) := by
  simp only [withRange, withSchedule_toStateVector]
  cases checkRange s.index len with
  | none => exact h
  | some addr => rfl

theorem skipOnKey_withSchedule (x : Reg) (i : Instr) (wanted : Bool) :
    skipOnKey x i wanted (withSchedule inputs clock s) = withSchedule inputs clock (skipOnKey x i wanted s) := by
  simp only [skipOnKey, withSchedule_params, withSchedule_reg]
  cases keyIndex s.params.keyIndexPolicy (s.reg x) with
  | none | some k => rfl

theorem waitPoll_withSchedule (x : Reg) :
    waitPoll x (withSchedule inputs clock s) = withSchedule inputs clock (waitPoll x s) := by
  obtain ⟨hkeys, hidle⟩ | ⟨hkeys, hkey⟩ := waitPoll_cases s x
  · rw [hidle]
    exact if_pos hkeys
  · rw [hkey]
    exact if_neg hkeys

/-! ## Instructions and the Step event -/

/-- No instruction reads or writes the listed turns or the clock. -/
theorem exec_withSchedule (i : Instr) :
    ∃ t, exec i s = .next t ∧ exec i (withSchedule inputs clock s) = .next (withSchedule inputs clock t) := by
  cases i with
  | ret =>
    by_cases h : s.sp = 0
    · exact ⟨_, congrArg Host.Outcome.next (if_pos h), congrArg Host.Outcome.next (if_pos h)⟩
    · exact ⟨_, congrArg Host.Outcome.next (if_neg h), congrArg Host.Outcome.next (if_neg h)⟩
  | call _ =>
    by_cases h : s.sp = 16
    · exact ⟨_, congrArg Host.Outcome.next (if_pos h), congrArg Host.Outcome.next (if_pos h)⟩
    · exact ⟨_, congrArg Host.Outcome.next (if_neg h), congrArg Host.Outcome.next (if_neg h)⟩
  | addReg x y | subReg x y | shrReg x y | subnReg x y | shlReg x y =>
    exact ⟨_, rfl, congrArg (fun t : State => Host.Outcome.next (t.advance 2)) (flagOp_withSchedule inputs clock s _ _ x y)⟩
  | addIndex x =>
    exact ⟨_, rfl, congrArg (fun t : State => Host.Outcome.next (t.advance 2)) (indexOp_withSchedule inputs clock s x)⟩
  | drw _ _ _ | ldBcd _ | storeRegs _ | loadRegs _ =>
    exact ⟨_, rfl, congrArg Host.Outcome.next (withRange_withSchedule inputs clock s _ _ rfl)⟩
  | skp x | sknp x => exact ⟨_, rfl, congrArg Host.Outcome.next (skipOnKey_withSchedule inputs clock s x _ _)⟩
  | cls | jp _ | seByte _ _ | sneByte _ _ | seReg _ _ | sneReg _ _ | ldByte _ _ | addByte _ _ | ldReg _ _ | orReg _ _
  | andReg _ _ | xorReg _ _ | ldIndex _ | jpV0 _ | rnd _ _ | ldFromDelay _ | ldKey _ | ldDelay _ | ldSound _
  | ldFont _ =>
    exact ⟨_, rfl, rfl⟩

/-- A Step event neither reads nor writes the listed turns or the clock. -/
theorem stepEvent_withSchedule :
    ∃ t, stepEvent s = .next t ∧
      stepEvent (withSchedule inputs clock s) = .next (withSchedule inputs clock t) := by
  unfold stepEvent
  by_cases hh : s.halted = true
  · exact ⟨s, if_pos hh, if_pos hh⟩
  · simp only [withSchedule_halted, withSchedule_toStateVector, withSchedule_fetchCheck, withSchedule_fetchWord, hh]
    cases s.wait with
    | some x => exact ⟨_, rfl, congrArg Host.Outcome.next (waitPoll_withSchedule inputs clock s x)⟩
    | none =>
      cases fetchCheck s with
      | some addr => exact ⟨_, rfl, rfl⟩
      | none =>
        cases decodeWord (fetchWord s) with
        | none => exact ⟨_, rfl, rfl⟩
        | some i => exact exec_withSchedule inputs clock s i

end Schedule

/-! ## The Step event on the state vector -/

/-- Ticks one after another are `ticks` of their number. -/
theorem iterate_tick (n : Nat) (s : State) : tick^[n] s = ticks n s := by
  induction n with
  | zero => exact (ticks_zero s).symm
  | succ n ih => rw [Function.iterate_succ_apply', ih, tick_eq_ticks, ticks_ticks]

/-- The start of a Step is the assembled state of its vector after the Ticks, with the turns and the clock beside it. -/
theorem assemble_ticks (s : State) :
    (ticks s.nextTurn.ticks s).toStateVector.assemble s.params s.nextTurn.sample = withSchedule [] 0 (beginStep s) :=
  rfl

/-- A Tick's vector depends on the vector only. -/
theorem tick_toStateVector_congr {s s' : State} (h : s.toStateVector = s'.toStateVector) :
    (tick s).toStateVector = (tick s').toStateVector := by
  rw [tick_eq_ticks, tick_eq_ticks]
  unfold ticks
  rw [h]

/-- Settles O55: the Step event does the same without the turns and the clock (`stepEvent_withSchedule`). -/
theorem stepIsStepOfTheStateVector : Obligations.StepIsStepOfTheStateVector := by
  unfold Obligations.StepIsStepOfTheStateVector
  refine ⟨fun s t h => ?_, fun _ _ => tick_toStateVector_congr⟩
  obtain ⟨u, hu, hbare⟩ := stepEvent_withSchedule [] 0 (beginStep s)
  obtain rfl := Host.Outcome.next.inj (h.symm.trans hu)
  rw [iterate_tick, StateVector.stepWith, assemble_ticks, hbare]
  rfl

end Sys2Proof.Machine
end

section
/-! PROOF. Memory (20_memory.md): the canonical form is unique, stores reach no byte outside their range, an access out of range
is a fault and nothing else, and a stored word is the word fetched next. -/

namespace Sys2Proof.Machine

open Sys2Proof.Claims

/-! ## The canonical form (R60) -/

/-- The listed cells of a canonical memory are the addresses that do not read as blank, with their bytes. -/
theorem Memory.mem_iff_read {m : Memory} (hm : m.wf) (a : Nat) (b : Byte) :
    (a, b) ∈ m ↔ m.read a = b ∧ b ≠ Memory.blank a := by
  obtain ⟨hsorted, hlisted⟩ := hm
  induction m with
  | nil =>
    constructor
    · intro h
      exact absurd h List.not_mem_nil
    · rintro ⟨hb, hne⟩
      exact absurd hb.symm hne
  | cons e m ih =>
    obtain ⟨c, d⟩ := e
    obtain ⟨htail, hsorted⟩ := List.pairwise_cons.1 hsorted
    obtain ⟨⟨-, hd⟩, hlisted⟩ := List.forall_mem_cons.1 hlisted
    have ih := ih hsorted hlisted
    by_cases hca : c = a
    · subst hca
      have hnot : (c, b) ∉ m := fun h => Nat.lt_irrefl c (htail (c, b) h)
      rw [List.mem_cons, Memory.read, if_pos rfl]
      constructor
      · rintro (h | h)
        · obtain rfl : b = d := congrArg Prod.snd h
          exact ⟨rfl, hd⟩
        · exact absurd h hnot
      · rintro ⟨rfl, -⟩
        exact .inl rfl
    · have hne : (a, b) ≠ (c, d) := fun h => hca (congrArg Prod.fst h).symm
      rw [List.mem_cons, Memory.read, if_neg hca, ← ih]
      exact or_iff_right hne

/-- Settles O46: the reads give the listed cells (`Memory.mem_iff_read`), and a strictly rising list is given by its members. -/
theorem canonicalMemoryIsUnique : Obligations.CanonicalMemoryIsUnique := by
  unfold Obligations.CanonicalMemoryIsUnique
  intro m m' hm hm' hread
  have hasymm : Std.Asymm (fun c d : Host.Cell => c.1 < d.1) := ⟨fun _ _ => Nat.lt_asymm⟩
  refine hm.1.eq_of_mem_iff hm'.1 fun ⟨a, b⟩ => ?_
  rw [Memory.mem_iff_read hm, Memory.mem_iff_read hm', hread]

/-! ## Accesses out of range (R63, 60_exceptions.md R213, R214) -/

/-- The encoder's packing is the word written as a number. -/
theorem packXKK_eq_wordXKK (f : BitVec 4) (x : Reg) (kk : Byte) : packXKK f x kk = wordXKK f.toNat x kk.toNat := by
  apply BitVec.eq_of_toNat_eq
  rw [packXKK_toNat, wordXKK, BitVec.toNat_ofNat]
  omega

theorem packXYN_eq_wordXYN (f : BitVec 4) (x y : Reg) (n : BitVec 4) :
    packXYN f x y n = wordXYN f.toNat x y n.toNat := by
  apply BitVec.eq_of_toNat_eq
  rw [packXYN_toNat, wordXYN, BitVec.toNat_ofNat]
  omega

/-- An instruction that is a range check and its effect raises OutOfBounds where the check fails. -/
theorem raisesFault_of_withRange {i : Instr} {s : State} {len : Nat} {effect : State → State} {addr w : Word}
    (hexec : exec i s = .next (withRange len i s effect)) (hw : encode i = w) (hlen : 0 < len)
    (hrange : s.index.toNat + len - 1 > 0xFFF) (haddr : addr.toNat = max s.index.toNat 0x1000) :
    RaisesFault i s .outOfBounds w (some addr) := by
  have hsize : Config.memSize < s.index.toNat + len := Nat.add_lt_of_lt_sub hrange
  have hcheck : checkRange s.index len = some addr := (checkRange_eq_some_iff _ _ _).2 ⟨hlen, hsize, haddr⟩
  have hfault : withRange len i s effect = raiseFault .outOfBounds (some w) (some addr) s := by
    rw [withRange, hcheck, hw]
  exact ⟨_, hexec.trans (congrArg _ hfault), rfl, rfl, raiseFault_frame _ _ _ s⟩

/-- Settles O44: each of the four is a range check and its effect. -/
theorem outOfRangeAccessReportsLowestAddress : Obligations.OutOfRangeAccessReportsLowestAddress := by
  unfold Obligations.OutOfRangeAccessReportsLowestAddress
  intro s x y n addr haddr
  refine ⟨fun hn hrange => ?_, fun hrange => ?_, fun hrange => ⟨?_, ?_⟩⟩
  · have hpos : 0 < n.toNat := Nat.pos_of_ne_zero fun h => hn (BitVec.eq_of_toNat_eq h)
    exact raisesFault_of_withRange rfl (packXYN_eq_wordXYN 0xD x y n) hpos hrange haddr
  · exact raisesFault_of_withRange rfl (packXKK_eq_wordXKK 0xF x 0x33) (by decide) hrange haddr
  · exact raisesFault_of_withRange rfl (packXKK_eq_wordXKK 0xF x 0x55) (Nat.succ_pos _) hrange haddr
  · exact raisesFault_of_withRange rfl (packXKK_eq_wordXKK 0xF x 0x65) (Nat.succ_pos _) hrange haddr

/-! ## Stores at I (R61) -/

/-- A step whose fetch reads `i` is the execution of `i` after the scheduler's part of the turn. -/
theorem step_eq_exec {s : State} {i : Instr} (h : Executes s i) : step s = exec i (beginStep s) := by
  obtain ⟨hf, hw, hc, hd⟩ := (executes_iff s i).1 h
  have hrunning : (beginStep s).halted = false := (not_halted_iff s).2 hf
  simp [step, stepEvent, hrunning, hw, hc, hd]

/-- A store at I, whether it completes or faults, keeps the bytes outside its range. -/
theorem read_withRange_writeBytes_of_outside {s : State} (hm : Memory.wf s.mem) {bytes : State → List Byte} {a : Nat}
    (ha : a < s.index.toNat ∨ s.index.toNat + (bytes s).length ≤ a) (len : Nat) (i : Instr) :
    (withRange len i s fun s => (s.setMem (s.mem.writeBytes s.index.toNat (bytes s))).advance 2).mem.read a =
      s.mem.read a := by
  obtain ⟨-, hok⟩ | ⟨addr, -, hfault⟩ := withRange_cases len i s _
  · rw [hok]
    exact Memory.read_writeBytes_of_outside hm ha
  · rw [hfault, raiseFault_mem]

theorem exec_ldBcd_writes_within {s t : State} {x : Reg} {a : Nat} (hm : Memory.wf s.mem)
    (hexec : exec (.ldBcd x) s = .next t) (ha : t.mem.read a ≠ s.mem.read a) :
    s.index.toNat ≤ a ∧ a < s.index.toNat + 3 := by
  obtain rfl := Host.Outcome.next.inj hexec
  by_contra hout
  exact ha (read_withRange_writeBytes_of_outside hm (bytes := fun s => bcdDigits (s.reg x))
    (by simp only [bcdDigits, List.length_cons, List.length_nil]; omega) _ _)

theorem exec_storeRegs_writes_within {s t : State} {x : Reg} {a : Nat} (hm : Memory.wf s.mem)
    (hexec : exec (.storeRegs x) s = .next t) (ha : t.mem.read a ≠ s.mem.read a) :
    s.index.toNat ≤ a ∧ a ≤ s.index.toNat + x.val := by
  obtain rfl := Host.Outcome.next.inj hexec
  by_contra hout
  exact ha (read_withRange_writeBytes_of_outside hm (bytes := fun s => s.regsBelow (x.val + 1))
    (by rw [regsBelow_length]; omega) _ _)

/-- Settles O22: `step_writer` names the two instructions, and each writes within its range. -/
theorem onlyTwoInstructionsWriteMemory : Obligations.OnlyTwoInstructionsWriteMemory := by
  unfold Obligations.OnlyTwoInstructionsWriteMemory
  intro s t a hm h ha
  obtain ⟨i, hi, x, hwriter⟩ := step_writer_of_not_polled (p := .byte a) h ha (by simp [ByTurn]) nofun (by simp)
  have hexec : exec i (beginStep s) = .next t := (step_eq_exec hi).symm.trans h
  obtain rfl | rfl := hwriter
  · exact ⟨_, x, hi, .inl ⟨rfl, exec_ldBcd_writes_within (s := beginStep s) hm hexec ha⟩⟩
  · exact ⟨_, x, hi, .inr ⟨rfl, exec_storeRegs_writes_within (s := beginStep s) hm hexec ha⟩⟩

/-! ## Self-modifying code (R71, 70_reset_and_hazards.md R247) -/

/-- Fx55 in range stores V0..Vx at I and goes on (43_index_memory.md R174). -/
theorem exec_storeRegs_of_inRange {s : State} {x : Reg} (h : s.index.toNat + x.val ≤ 0xFFF) :
    exec (.storeRegs x) s =
      .next ((s.setMem (s.mem.writeBytes s.index.toNat (s.regsBelow (x.val + 1)))).advance 2) := by
  have hcheck : checkRange s.index (x.val + 1) = none := (checkRange_eq_none_iff _ _).2 (.inr (Nat.succ_le_succ h))
  simp only [exec, execStoreRegs, withRange, hcheck]

/-- The byte stored at I + k is Vk. -/
theorem read_writeBytes_regsBelow {s : State} (hm : Memory.wf s.mem) {x k : Reg} (hk : k.val ≤ x.val)
    (h : s.index.toNat + x.val ≤ 0xFFF) :
    (s.mem.writeBytes s.index.toNat (s.regsBelow (x.val + 1))).read (s.index.toNat + k.val) = s.reg k := by
  have hlen : (s.regsBelow (x.val + 1)).length = x.val + 1 := by
    rw [regsBelow_length]
    omega
  have hend : s.index.toNat + (s.regsBelow (x.val + 1)).length ≤ Config.memSize := by
    rw [hlen]
    exact Nat.succ_le_succ h
  rw [Memory.read_writeBytes hm k.val (by omega) hend, regsBelow_getElem]

/-- The word stored at I is V0, V1, high byte first (R62). -/
theorem readWord_writeBytes_regsBelow {s : State} (hm : Memory.wf s.mem) {x : Reg} (hx : 1 ≤ x.val)
    (h : s.index.toNat + x.val ≤ 0xFFF) :
    (s.mem.writeBytes s.index.toNat (s.regsBelow (x.val + 1))).readWord s.index.toNat =
      joinBytes (s.reg 0) (s.reg 1) :=
  congrArg₂ joinBytes (read_writeBytes_regsBelow hm (k := 0) (Nat.zero_le _) h)
    (read_writeBytes_regsBelow hm (k := 1) hx h)

/-- Settles O45: the word at the next pc is V0, V1, so the next Step executes what they decode to. -/
theorem storedCodeIsExecutedNext : Obligations.StoredCodeIsExecutedNext := by
  unfold Obligations.StoredCodeIsExecutedNext
  intro s t x i hm hf hw hx hindex hrange hexec hdecode
  have hstored := readWord_writeBytes_regsBelow hm hx hrange
  have hfits : s.index.toNat + 1 ≤ 0xFFF := (Nat.add_le_add_left hx _).trans hrange
  rw [hindex] at hstored hfits
  obtain rfl := Host.Outcome.next.inj ((exec_storeRegs_of_inRange hrange).symm.trans hexec)
  refine step_eq_exec ((executes_iff _ i).2 ⟨hf, hw, ?_, ?_⟩)
  · exact (fetchCheck_eq_none_iff _).2 (Nat.lt_succ_of_le hfits)
  · rw [fetchWord, advance_mem, setMem_mem, hindex]
    exact (congrArg decodeWord hstored).trans hdecode

end Sys2Proof.Machine
end

section
/-! PROOF. The decoder and the encoder are inverse to each other (30_encoding.md R83, R90), and the words that do not decode are
those of R87. -/

namespace Sys2Proof

/-! ## From an instruction to its word and back -/

theorem decodeWord_encode (i : Instr) : decodeWord (encode i) = some i := by
  cases i with
  | cls | ret => rfl
  | _ => simp [encode, decodeWord, decode8, decodeE, decodeF]

/-- Settles O1: the two bytes join to the instruction's word, which decodes to it (`decodeWord_encode`). -/
theorem decodeOfEncodeGivesInstruction : Obligations.DecodeOfEncodeGivesInstruction := by
  unfold Obligations.DecodeOfEncodeGivesInstruction
  intro i rest
  simp [encodeBytes, decodeBytes, decodeWord_encode]

/-- Settles O5: each word is the encoding of its instruction. -/
theorem writtenOutWordsDecode : Obligations.WrittenOutWordsDecode :=
  ⟨decodeWord_encode (.jp 0x204), decodeWord_encode (.seByte 3 0x2A), decodeWord_encode (.addReg 1 2),
    decodeWord_encode (.drw 0 1 5), decodeWord_encode (.loadRegs 5), decodeWord_encode (.shrReg 1 0)⟩

/-! ## From a word to its instruction and back -/

section Fields

variable {w : Word} {f : BitVec 4}

theorem packNNN_eq_of_fields {nnn : BitVec 12} (hf : (fieldFamily w).toNat = f.toNat) (hnnn : fieldNNN w = nnn) :
    packNNN f nnn = w := by
  rw [← BitVec.eq_of_toNat_eq hf, ← hnnn, packNNN_fields]

theorem packXKK_eq_of_fields {kk : Byte} (hf : (fieldFamily w).toNat = f.toNat) (hkk : fieldKK w = kk) :
    packXKK f (fieldX w) kk = w := by
  rw [← BitVec.eq_of_toNat_eq hf, ← hkk, packXKK_fields]

theorem packXYN_eq_of_fields {n : BitVec 4} (hf : (fieldFamily w).toNat = f.toNat) (hn : fieldN w = n) :
    packXYN f (fieldX w) (fieldY w) n = w := by
  rw [← BitVec.eq_of_toNat_eq hf, ← hn, packXYN_fields]

/-- The decoder tests for the families 0 to E in turn, so what is left is family F. -/
theorem eq_fifteen_of_ne {k : Nat} (hlt : k < 16) (h : ∀ j < 15, k ≠ j) : k = 15 :=
  Nat.le_antisymm (Nat.le_of_lt_succ hlt) (Nat.not_lt.1 fun hk => h k hk rfl)

end Fields

section Families

variable {x y : Reg} {i : Instr} {k : Nat}

theorem encode_of_decode0 (h : decode0 k = some i) : encode i = packNNN 0x0 (BitVec.ofNat 12 k) := by
  unfold decode0 at h
  split at h <;> cases h <;> rfl

theorem encode_of_decode8 (h : decode8 x y k = some i) : encode i = packXYN 0x8 x y (BitVec.ofNat 4 k) := by
  unfold decode8 at h
  split at h <;> cases h <;> rfl

theorem encode_of_decodeE (h : decodeE x k = some i) : encode i = packXKK 0xE x (BitVec.ofNat 8 k) := by
  unfold decodeE at h
  split at h <;> cases h <;> rfl

theorem encode_of_decodeF (h : decodeF x k = some i) : encode i = packXKK 0xF x (BitVec.ofNat 8 k) := by
  unfold decodeF at h
  split at h <;> cases h <;> rfl

end Families

theorem encode_of_decodeWord {w : Word} {i : Instr} (h : decodeWord w = some i) : encode i = w := by
  unfold decodeWord at h
  split at h
  -- Case `h_n` is family n - 1. First the families in which every word is an instruction, by format.
  case h_2 hf | h_3 hf | h_11 hf | h_12 hf =>
    cases h
    exact packNNN_eq_of_fields hf rfl
  case h_4 hf | h_5 hf | h_7 hf | h_8 hf | h_13 hf =>
    cases h
    exact packXKK_eq_of_fields hf rfl
  case h_14 hf =>
    cases h
    exact packXYN_eq_of_fields hf rfl
  -- The families 5 and 9 fix N, and 0, 8, E and F select on more bits.
  case h_6 hf | h_10 hf =>
    obtain ⟨hn, h⟩ := Option.ite_none_right_eq_some.1 h
    cases h
    exact packXYN_eq_of_fields hf hn
  case h_1 hf => exact (encode_of_decode0 h).trans (packNNN_eq_of_fields hf (by simp))
  case h_9 hf => exact (encode_of_decode8 h).trans (packXYN_eq_of_fields hf (by simp))
  case h_15 hf => exact (encode_of_decodeE h).trans (packXKK_eq_of_fields hf (by simp))
  case h_16 =>
    have hf : (fieldFamily w).toNat = 15 := eq_fifteen_of_ne (fieldFamily w).isLt (by grind)
    exact (encode_of_decodeF h).trans (packXKK_eq_of_fields hf (by simp))

/-- Settles O2 (`encode_of_decodeWord`). -/
theorem encodeOfDecodeGivesWord : Obligations.EncodeOfDecodeGivesWord := by
  unfold Obligations.EncodeOfDecodeGivesWord
  intro w i h
  exact encode_of_decodeWord h

/-! ## The words that do not decode (R87) -/

theorem decode0_eq_none_iff (k : Nat) : decode0 k = none ↔ k ≠ 0x0E0 ∧ k ≠ 0x0EE := by
  unfold decode0
  split <;> simp_all

theorem decode8_eq_none_iff (x y : Reg) {k : Nat} (h : k < 16) :
    decode8 x y k = none ↔ k ∈ [0x8, 0x9, 0xA, 0xB, 0xC, 0xD, 0xF] := by
  interval_cases k <;> simp [decode8]

theorem decodeE_eq_none_iff (x : Reg) (k : Nat) : decodeE x k = none ↔ k ∉ [0x9E, 0xA1] := by
  unfold decodeE
  split <;> simp_all

theorem decodeF_eq_none_iff (x : Reg) (k : Nat) :
    decodeF x k = none ↔ k ∉ [0x07, 0x0A, 0x15, 0x18, 0x1E, 0x29, 0x33, 0x55, 0x65] := by
  unfold decodeF
  split <;> simp_all

theorem fieldN_eq_zero_iff (w : Word) : fieldN w = 0#4 ↔ w.toNat % 16 = 0 := by
  rw [← fieldN_toNat]
  exact BitVec.toNat_inj.symm

/-- Settles O4: six families leave words without an instruction, each by its own test; the others decode every word. -/
theorem undecodedWordsAreTheIllegalOnes : Obligations.UndecodedWordsAreTheIllegalOnes := by
  unfold Obligations.UndecodedWordsAreTheIllegalOnes
  intro w
  have hfamily0 : w.toNat < 0x1000 ↔ w.toNat / 4096 = 0 := by omega
  rw [hfamily0, decodeWord, fieldFamily_toNat]
  split
  -- Case `h_n` is family n - 1.
  case h_1 hf =>
    have hnnn : w.toNat % 4096 = w.toNat := by omega
    simp [hf, decode0_eq_none_iff, fieldNNN_toNat, hnnn]
  case h_6 hf | h_10 hf =>
    simp [hf, fieldN_eq_zero_iff]
  case h_9 hf =>
    have hn : w.toNat % 16 < 16 := Nat.mod_lt _ (by decide)
    simp [hf, fieldN_toNat, decode8_eq_none_iff _ _ hn]
  case h_15 hf =>
    simp [hf, decodeE_eq_none_iff, fieldKK_toNat]
  case h_16 =>
    have hf : w.toNat / 4096 = 15 := eq_fifteen_of_ne (by omega) (by grind)
    simp [hf, decodeF_eq_none_iff, fieldKK_toNat]
  case h_2 hf | h_3 hf | h_4 hf | h_5 hf | h_7 hf | h_8 hf | h_11 hf | h_12 hf | h_13 hf | h_14 hf =>
    simp [hf]

end Sys2Proof
end

section
/-! PROOF. The decoder and the opcode table agree (30_encoding.md R85). A word that a row accepts decodes to an instruction of
that row, so the table's words decode and no two rows share a word. -/

namespace Sys2Proof.Laws.RowMatch

theorem rowOf_accepts_encode : ∀ i : Instr, Statement i
  | .cls => cls
  | .ret => ret
  | .jp nnn => jp nnn
  | .call nnn => call nnn
  | .seByte x kk => seByte x kk
  | .sneByte x kk => sneByte x kk
  | .seReg x y => seReg x y
  | .ldByte x kk => ldByte x kk
  | .addByte x kk => addByte x kk
  | .ldReg x y => ldReg x y
  | .orReg x y => orReg x y
  | .andReg x y => andReg x y
  | .xorReg x y => xorReg x y
  | .addReg x y => addReg x y
  | .subReg x y => subReg x y
  | .shrReg x y => shrReg x y
  | .subnReg x y => subnReg x y
  | .shlReg x y => shlReg x y
  | .sneReg x y => sneReg x y
  | .ldIndex nnn => ldIndex nnn
  | .jpV0 nnn => jpV0 nnn
  | .rnd x kk => rnd x kk
  | .drw x y n => drw x y n
  | .skp x => skp x
  | .sknp x => sknp x
  | .ldFromDelay x => ldFromDelay x
  | .ldKey x => ldKey x
  | .ldDelay x => ldDelay x
  | .ldSound x => ldSound x
  | .addIndex x => addIndex x
  | .ldFont x => ldFont x
  | .ldBcd x => ldBcd x
  | .storeRegs x => storeRegs x
  | .loadRegs x => loadRegs x

/-! ## What a row fixes of a word -/

section Accepts

variable {w m p : Word}

/-- A field under ones of the mask is the pattern's. -/
theorem extract_of_accepts (h : Row.accepts ⟨m, p⟩ w = true) {lo n : Nat} (hm : m.extractLsb' lo n = BitVec.allOnes n) :
    w.extractLsb' lo n = p.extractLsb' lo n := by
  have hp : w &&& m = p := eq_of_beq h
  rw [← hp, BitVec.extractLsb'_and, hm, BitVec.and_allOnes]

theorem eq_of_accepts_word (h : Row.accepts ⟨0xFFFF, p⟩ w = true) : w = p :=
  BitVec.and_allOnes.symm.trans (eq_of_beq h)

theorem field_of_accepts_family (h : Row.accepts ⟨0xF000, p⟩ w = true) : fieldFamily w = p.extractLsb' 12 4 :=
  extract_of_accepts h (by decide)

theorem fields_of_accepts_xyn (h : Row.accepts ⟨0xF00F, p⟩ w = true) :
    fieldFamily w = p.extractLsb' 12 4 ∧ fieldN w = p.extractLsb' 0 4 :=
  ⟨extract_of_accepts h (by decide), extract_of_accepts h (by decide)⟩

theorem fields_of_accepts_xkk (h : Row.accepts ⟨0xF0FF, p⟩ w = true) :
    fieldFamily w = p.extractLsb' 12 4 ∧ fieldKK w = p.extractLsb' 0 8 :=
  ⟨extract_of_accepts h (by decide), extract_of_accepts h (by decide)⟩

end Accepts

/-! ## The row of a decoded word -/

/-- The bits a row fixes are all the decoder selects on: one case per mask. -/
theorem map_rowOf_of_accepts_rowOf {w : Word} (i : Instr) (h : (rowOf i).accepts w = true) :
    (decodeWord w).map rowOf = some (rowOf i) := by
  cases i with
  | cls | ret =>
    obtain rfl := eq_of_accepts_word h
    rfl
  | jp | call | seByte | sneByte | ldByte | addByte | ldIndex | jpV0 | rnd | drw =>
    have hf := field_of_accepts_family h
    simp [decodeWord, hf, rowOf]
  | seReg | sneReg | ldReg | orReg | andReg | xorReg | addReg | subReg | shrReg | subnReg | shlReg =>
    obtain ⟨hf, hn⟩ := fields_of_accepts_xyn h
    simp [decodeWord, decode8, hf, hn, rowOf]
  | skp | sknp | ldFromDelay | ldKey | ldDelay | ldSound | addIndex | ldFont | ldBcd | storeRegs | loadRegs =>
    obtain ⟨hf, hkk⟩ := fields_of_accepts_xkk h
    simp [decodeWord, decodeE, decodeF, hf, hkk, rowOf]

theorem map_rowOf_decodeWord_pattern : ∀ r ∈ opcodeTable, (decodeWord r.pattern).map rowOf = some r := by
  decide

/-- A word that a row of the table accepts decodes to an instruction of that row. -/
theorem map_rowOf_of_accepts {w : Word} {r : Row} (hr : r ∈ opcodeTable) (h : r.accepts w = true) :
    (decodeWord w).map rowOf = some r := by
  obtain ⟨i, -, rfl⟩ := Option.map_eq_some_iff.1 (map_rowOf_decodeWord_pattern r hr)
  exact map_rowOf_of_accepts_rowOf i h

/-- A word decodes exactly when some row accepts it. -/
theorem isSome_decodeWord (w : Word) : (decodeWord w).isSome = wordWellFormed w := by
  rw [Bool.eq_iff_iff, Option.isSome_iff_exists, wordWellFormed, List.any_eq_true]
  constructor
  · rintro ⟨i, hi⟩
    obtain rfl := encode_of_decodeWord hi
    exact ⟨rowOf i, rowOf_accepts_encode i⟩
  · rintro ⟨r, hr, h⟩
    obtain ⟨i, hi, -⟩ := Option.map_eq_some_iff.1 (map_rowOf_of_accepts hr h)
    exact ⟨i, hi⟩

/-- Settles O3: two rows that accept a word are both the row of what it decodes to (`map_rowOf_of_accepts`). -/
theorem decoderAcceptsOpcodeTable : Obligations.DecoderAcceptsOpcodeTable := by
  unfold Obligations.DecoderAcceptsOpcodeTable
  intro w
  refine ⟨isSome_decodeWord w, fun r₁ hr₁ r₂ hr₂ h₁ h₂ => ?_⟩
  exact Option.some.inj ((map_rowOf_of_accepts hr₁ h₁).symm.trans (map_rowOf_of_accepts hr₂ h₂))

end Sys2Proof.Laws.RowMatch
end

section
/-! PROOF. The fetch and the start of a Step (30_encoding.md R80, R86). -/

namespace Sys2Proof.Machine

open Sys2Proof.Claims

/-! ## The scheduler's part of a turn (60_exceptions.md R221) -/

/-- Before the instruction runs, a turn writes the timers, `fb_changed` and the inputs. -/
theorem beginStep_frame (s : State) : Frame ByTurn s (beginStep s) := fun p hp =>
  (same_beginStep_iff hp s _).1 (Frame.refl ByTurn (beginStep s) p hp)

/-- A fault of the fetch or the decoder writes its record beside the turn's own parts. -/
theorem raiseFault_beginStep_frame (cause : Cause) (opcode addr : Option Word) (s : State) :
    Frame (fun p => ByTurn p ∨ p = .fault) s (raiseFault cause opcode addr (beginStep s)) := by
  intro p hp
  obtain ⟨hturn, hrecord⟩ := not_or.1 hp
  have hsignal : p ≠ .fbChanged := fun h => hturn (.inr (.inr (.inl h)))
  exact (same_beginStep_iff hturn s _).1 (raiseFault_frame cause opcode addr _ p (not_or.2 ⟨hrecord, hsignal⟩))

/-- The timers of a core that is not halted go down by the turn's Ticks. -/
theorem beginStep_timers_decayed {s : State} (hf : s.fault = none) :
    DecayedBy s.nextTurn.ticks s.dt (beginStep s).dt ∧ DecayedBy s.nextTurn.ticks s.st (beginStep s).st := by
  simp [DecayedBy, beginStep_dt, beginStep_st, hf, decay_toNat]

theorem nextTurn_of_listed {s : State} {turn : Turn} {rest : List Turn} (h : s.inputs = turn :: rest) :
    s.nextTurn = turn := by
  rw [State.nextTurn, h]

/-- Settles O6: `step_eq_exec` for the step, and the laws of `beginStep` for the state it starts from. -/
theorem stepRunsTheDecodedInstruction : Obligations.StepRunsTheDecodedInstruction := by
  unfold Obligations.StepRunsTheDecodedInstruction
  intro s i h
  obtain ⟨hf, -⟩ := (executes_iff s i).1 h
  obtain ⟨hdt, hst⟩ := beginStep_timers_decayed hf
  exact ⟨step_eq_exec h, beginStep_frame s, hdt, hst, rfl, rfl, rfl, rfl, rfl, fun _ _ => nextTurn_of_listed⟩

/-! ## The fetch's range check (R80) -/

theorem step_eq_fetchFault {s : State} (hf : s.fault = none) (hw : s.wait = none) {addr : Word}
    (hc : fetchCheck s = some addr) : step s = .next (fetchFault addr (beginStep s)) := by
  have hrunning : (beginStep s).halted = false := (not_halted_iff s).2 hf
  simp [step, stepEvent, hrunning, hw, hc]

/-- Above 0xFFE the check fails with the lowest address out of range. -/
theorem fetchCheck_of_beyond {s : State} (hpc : 0xFFE < s.pc.toNat) :
    ∃ addr, fetchCheck s = some addr ∧ addr.toNat = max s.pc.toNat 0x1000 := by
  obtain ⟨addr, haddr⟩ : ∃ addr, fetchCheck s = some addr := by
    rw [← Option.ne_none_iff_exists', Ne, fetchCheck_eq_none_iff]
    exact Nat.not_lt.2 (Nat.succ_le_succ hpc)
  obtain ⟨-, -, hmax⟩ := (checkRange_eq_some_iff _ _ _).1 haddr
  exact ⟨addr, haddr, hmax⟩

/-- Settles O7: the fetch's range check fails, and the fault it raises writes only its record. -/
theorem fetchBeyondMemoryHalts : Obligations.FetchBeyondMemoryHalts := by
  unfold Obligations.FetchBeyondMemoryHalts
  intro s hf hw hpc
  obtain ⟨addr, hcheck, hmax⟩ := fetchCheck_of_beyond hpc
  exact ⟨_, addr, step_eq_fetchFault hf hw hcheck, hmax, rfl, rfl, raiseFault_beginStep_frame _ _ _ s⟩

end Sys2Proof.Machine
end

section
/-! PROOF. 00E0 and Dxyn (40_display.md). The cells a blit hits are those `SpriteLights` names, so the laws of the blit say what
Dxyn does to the cells and to VF. -/

namespace Sys2Proof.Machine

open Sys2Proof.Claims

/-! ## 00E0 (R100) -/

/-- Settles O51: 00E0 is a new framebuffer and the pc write. -/
theorem clearZeroesEveryCell : Obligations.ClearZeroesEveryCell := by
  unfold Obligations.ClearZeroesEveryCell
  refine ⟨decodeWord_encode .cls, fun s => ⟨_, rfl, fun cx cy => readCell_clearedFb cx.val cy.val, rfl, rfl, ?_⟩⟩
  exact ((Frame.refl _ s).setFb (fun cx cy => .inr (.inr ⟨cx, cy, rfl⟩)) (.inr (.inl rfl)) _).advance (.inl rfl) 2

/-! ## Dxyn as one update (R101) -/

/-- The model's list of hits against the statements' `SpriteLights`, under each edge policy (R102, R104). -/
theorem mem_sprite_iff (s : State) (x y : Reg) (n : BitVec 4) (cx : Fin 64) (cy : Fin 32) :
    (cx.val, cy.val) ∈ s.sprite x y n ↔ SpriteLights s x y n cx cy := by
  rw [State.sprite, mem_rowHits, SpriteLights]
  cases s.params.spriteEdge <;>
    simp only [target_eq_some_iff _ _ _ _ _ cx.isLt cy.isLt, Memory.readBytes_getElem, Memory.readBytes_length, spriteBit,
      exists_prop, exists_and_left]

/-- The state after a Dxyn whose sprite is in range. -/
def State.drawn (s : State) (x y : Reg) (n : BitVec 4) : State :=
  ((s.setFb (s.blit x y n).1).setReg vf (flagByte (s.blit x y n).2)).advance 2

theorem exec_drw_of_inRange {s : State} {n : BitVec 4} (h : SpriteInRange s n) (x y : Reg) :
    exec (.drw x y n) s = .next (s.drawn x y n) := by
  simp only [exec, execDrw, withRange, checkRange_eq_none_of_spriteInRange h, State.drawn]

theorem eq_drawn_of_exec {s t : State} {x y : Reg} {n : BitVec 4} (h : SpriteInRange s n)
    (hexec : exec (.drw x y n) s = .next t) : t = s.drawn x y n :=
  Host.Outcome.next.inj (hexec.symm.trans (exec_drw_of_inRange h x y))

section Drawn

variable (s : State) (x y : Reg) (n : BitVec 4)

theorem drawn_fb : (s.drawn x y n).fb = (s.blit x y n).1 := rfl

theorem drawn_reg_vf : (s.drawn x y n).reg vf = flagByte (s.blit x y n).2 :=
  reg_setReg_self _ vf _

theorem drawn_frame :
    Frame (fun p => p = .pc ∨ p = .fbChanged ∨ p = .reg vf ∨ ∃ cx cy, p = .cell cx cy) s (s.drawn x y n) :=
  (((Frame.refl _ s).setFb (fun cx cy => .inr (.inr (.inr ⟨cx, cy, rfl⟩))) (.inr (.inl rfl)) _).setReg
    (.inr (.inr (.inl rfl))) _).advance (.inl rfl) 2

/-- A cell ends at 1 if it was 1 and no lit bit lands on it, or was 0 and one does. -/
theorem drawn_cell_iff (cx : Fin 64) (cy : Fin 32) :
    readCell (s.drawn x y n).fb cx.val cy.val = true ↔
      (readCell s.fb cx.val cy.val = true ↔ ¬ SpriteLights s x y n cx cy) := by
  rw [drawn_fb, blit_cell, ← mem_sprite_iff]
  by_cases hlit : (cx.val, cy.val) ∈ s.sprite x y n <;> simp [hlit]

/-- A cell goes from 1 to 0 exactly if it was 1 and a lit bit lands on it. -/
theorem drawn_erases_iff (cx : Fin 64) (cy : Fin 32) :
    readCell s.fb cx.val cy.val = true ∧ readCell (s.drawn x y n).fb cx.val cy.val = false ↔
      SpriteLights s x y n cx cy ∧ readCell s.fb cx.val cy.val = true := by
  rw [← Bool.not_eq_true, drawn_cell_iff]
  tauto

/-- The blit's flag: a lit bit lands on a cell that was 1 (R103). -/
theorem blit_collides_iff :
    (s.blit x y n).2 = true ↔
      ∃ (cx : Fin 64) (cy : Fin 32), SpriteLights s x y n cx cy ∧ readCell s.fb cx.val cy.val = true := by
  rw [blit_flag]
  constructor
  · rintro ⟨⟨cx, cy⟩, hlit, hset⟩
    obtain ⟨hx, hy⟩ := rowHits_inGrid hlit
    exact ⟨⟨cx, hx⟩, ⟨cy, hy⟩, (mem_sprite_iff s x y n _ _).1 hlit, hset⟩
  · rintro ⟨cx, cy, hlit, hset⟩
    exact ⟨_, (mem_sprite_iff s x y n cx cy).2 hlit, hset⟩

variable {s x y n}

theorem drawn_reg_vf_of_collision {cx : Fin 64} {cy : Fin 32} (hlit : SpriteLights s x y n cx cy)
    (hset : readCell s.fb cx.val cy.val = true) : (s.drawn x y n).reg vf = 1 := by
  rw [drawn_reg_vf, (blit_collides_iff s x y n).2 ⟨cx, cy, hlit, hset⟩]
  rfl

theorem drawn_reg_vf_of_no_collision (h : ∀ cx cy, SpriteLights s x y n cx cy → readCell s.fb cx.val cy.val = false) :
    (s.drawn x y n).reg vf = 0 := by
  have hflag : (s.blit x y n).2 = false := by
    rw [← Bool.not_eq_true, blit_collides_iff]
    rintro ⟨cx, cy, hlit, hset⟩
    exact absurd (hset.symm.trans (h cx cy hlit)) nofun
  rw [drawn_reg_vf, hflag]
  rfl

/-- A second draw with the same operands lights the same cells if neither coordinate is VF (R105). -/
theorem spriteLights_drawn_iff (hx : x ≠ vf) (hy : y ≠ vf) (cx : Fin 64) (cy : Fin 32) :
    SpriteLights (s.drawn x y n) x y n cx cy ↔ SpriteLights s x y n cx cy := by
  have hregx : (s.drawn x y n).reg x = s.reg x := reg_setReg_of_ne _ hx _
  have hregy : (s.drawn x y n).reg y = s.reg y := reg_setReg_of_ne _ hy _
  simp only [SpriteLights, hregx, hregy]
  rfl

end Drawn

/-! ## The statements about Dxyn -/

/-- Settles O52: an in-range Dxyn ends in `State.drawn`, whose cells are those of `drawn_cell_iff`. -/
theorem drawXorsTheSprite : Obligations.DrawXorsTheSprite := by
  unfold Obligations.DrawXorsTheSprite
  intro s x y n
  refine ⟨?_, fun hrange => ⟨_, exec_drw_of_inRange hrange x y, drawn_cell_iff s x y n, rfl, rfl, drawn_frame s x y n⟩⟩
  have hword : encode (.drw x y n) = wordXYN 0xD x y n.toNat := packXYN_eq_wordXYN 0xD x y n
  rw [← hword, decodeWord_encode]

/-- Settles O53: a cell that a lit bit lands on while it is 1 is one that goes from 1 to 0 (`drawn_erases_iff`). -/
theorem collisionFlagReportsErasedCells : Obligations.CollisionFlagReportsErasedCells := by
  unfold Obligations.CollisionFlagReportsErasedCells
  intro s t x y n hrange hexec
  obtain rfl := eq_drawn_of_exec hrange hexec
  constructor
  · rintro ⟨cx, cy, herased⟩
    obtain ⟨hlit, hset⟩ := (drawn_erases_iff s x y n cx cy).1 herased
    exact drawn_reg_vf_of_collision hlit hset
  · intro hkept
    refine drawn_reg_vf_of_no_collision fun cx cy hlit => ?_
    by_contra hset
    rw [Bool.not_eq_false] at hset
    obtain ⟨-, herased⟩ := (drawn_erases_iff s x y n cx cy).2 ⟨hlit, hset⟩
    exact absurd ((hkept cx cy hset).symm.trans herased) nofun

/-- Settles O54: the second draw lights the cells the first did (`spriteLights_drawn_iff`), and XOR with the same bit twice is
no change. -/
theorem drawingTwiceRestoresTheCells : Obligations.DrawingTwiceRestoresTheCells := by
  unfold Obligations.DrawingTwiceRestoresTheCells
  intro s t u x y n hrange hx hy hfirst hsecond
  obtain rfl := eq_drawn_of_exec hrange hfirst
  have hrange' : SpriteInRange (s.drawn x y n) n := hrange
  obtain rfl := eq_drawn_of_exec hrange' hsecond
  have hsame := spriteLights_drawn_iff (s := s) (n := n) hx hy
  refine ⟨fb_ext fun cx cy => ?_, ?_⟩
  · rw [Bool.eq_iff_iff, drawn_cell_iff, drawn_cell_iff, hsame]
    tauto
  · rintro ⟨cx, cy, hlit⟩ hclear
    have hset : readCell (s.drawn x y n).fb cx.val cy.val = true := by
      simp [drawn_cell_iff, hclear cx cy hlit, hlit]
    exact ⟨drawn_reg_vf_of_no_collision hclear, drawn_reg_vf_of_collision ((hsame cx cy).2 hlit) hset⟩

end Sys2Proof.Machine
end

section
/-! PROOF. Control transfers and skips (41_control_flow.md). A transfer writes pc, 2nnn and 00EE move SP by one and read or write
the entry it points at, and both raise their fault before they write anything. -/

namespace Sys2Proof.Machine

open Sys2Proof.Claims

/-! ## The words (30_encoding.md R83, R87) -/

theorem packNNN_eq_wordNNN (f : BitVec 4) (nnn : BitVec 12) : packNNN f nnn = wordNNN f.toNat nnn := by
  apply BitVec.eq_of_toNat_eq
  rw [packNNN_toNat, wordNNN, BitVec.toNat_ofNat]
  omega

theorem decodeWord_of_encode_eq {i : Instr} {w : Word} (h : encode i = w) : decodeWord w = some i :=
  h ▸ decodeWord_encode i

/-- 5xyN and 9xyN are instructions for N = 0 only. -/
theorem decodeWord_wordXYN_eq_none {f n : BitVec 4} (hf : f = 0x5 ∨ f = 0x9) (hn : n ≠ 0) (x y : Reg) :
    decodeWord (wordXYN f.toNat x y n.toNat) = none := by
  rw [← packXYN_eq_wordXYN]
  obtain rfl | rfl := hf <;> simpa [decodeWord] using hn

/-! ## Jumps and skips (R122, R124 to R128) -/

section Pc

variable {i : Instr} {s : State}

theorem setsPc_of_setPc {a : Word} (h : exec i s = .next (s.setPc a)) : SetsPc i s a :=
  ⟨_, h, rfl, (Frame.refl (· = .pc) s).setPc rfl a⟩

/-- A skip whose test is `taken`, said of the proposition `p` that the test decides and of its opposite `q`. -/
theorem setsPc_of_skipIf {taken : Bool} {p q : Prop} (h : exec i s = .next (s.skipIf taken)) (hp : taken = true ↔ p)
    (hq : taken = false ↔ q) : (p → SetsPc i s (s.pc + 4)) ∧ (q → SetsPc i s (s.pc + 2)) := by
  constructor
  · intro hskip
    obtain rfl := hp.2 hskip
    exact setsPc_of_setPc h
  · intro hnot
    obtain rfl := hq.2 hnot
    exact setsPc_of_setPc h

end Pc

theorem zext16_eq_ofNat (nnn : BitVec 12) : zext16 nnn = BitVec.ofNat 16 nnn.toNat :=
  (BitVec.ofNat_toNat 16 nnn).symm

/-- The largest sum, 0xFF + 0xFFF, is a word: nothing is reduced. -/
theorem offsetTarget_toNat (v0 : Byte) (nnn : BitVec 12) : (offsetTarget v0 nnn).toNat = v0.toNat + nnn.toNat := by
  rw [offsetTarget, BitVec.toNat_ofNat]
  omega

/-- Settles O34: each is a skip on its test (`setsPc_of_skipIf`). -/
theorem skipsAdvanceByFourOrTwo : Obligations.SkipsAdvanceByFourOrTwo := by
  unfold Obligations.SkipsAdvanceByFourOrTwo
  intro s x y kk
  refine ⟨⟨?_, ?_⟩, ⟨?_, ?_⟩, ⟨?_, fun n hn => ?_, ?_⟩, ⟨?_, fun n hn => ?_, ?_⟩⟩
  · exact decodeWord_of_encode_eq (packXKK_eq_wordXKK 0x3 x kk)
  · exact setsPc_of_skipIf rfl beq_iff_eq beq_eq_false_iff_ne
  · exact decodeWord_of_encode_eq (packXKK_eq_wordXKK 0x4 x kk)
  · exact setsPc_of_skipIf rfl bne_iff_ne bne_eq_false_iff_eq
  · exact decodeWord_of_encode_eq (packXYN_eq_wordXYN 0x5 x y 0)
  · exact decodeWord_wordXYN_eq_none (.inl rfl) hn x y
  · exact setsPc_of_skipIf rfl beq_iff_eq beq_eq_false_iff_ne
  · exact decodeWord_of_encode_eq (packXYN_eq_wordXYN 0x9 x y 0)
  · exact decodeWord_wordXYN_eq_none (.inr rfl) hn x y
  · exact setsPc_of_skipIf rfl bne_iff_ne bne_eq_false_iff_eq

/-- Settles O35: both are a pc write, the second of an exact sum (`offsetTarget_toNat`). -/
theorem jumpsSetThePc : Obligations.JumpsSetThePc := by
  unfold Obligations.JumpsSetThePc
  intro s nnn
  have hjp : encode (.jp nnn) = wordNNN 0x1 nnn := packNNN_eq_wordNNN 0x1 nnn
  have hjpV0 : encode (.jpV0 nnn) = wordNNN 0xB nnn := packNNN_eq_wordNNN 0xB nnn
  have hexec : exec (.jp nnn) s = .next (s.setPc (BitVec.ofNat 16 nnn.toNat)) := by
    rw [← zext16_eq_ofNat]
    rfl
  exact ⟨decodeWord_of_encode_eq hjp, setsPc_of_setPc hexec, decodeWord_of_encode_eq hjpV0, _,
    offsetTarget_toNat (s.reg 0) nnn, setsPc_of_setPc rfl⟩

/-! ## Call and return (R121, R123) -/

section Stack

variable {s : State}

theorem endsInFault_of_raiseFault {i : Instr} {cause : Cause} {opcode addr : Option Word}
    (h : exec i s = .next (raiseFault cause opcode addr s)) : EndsInFault i s cause (raiseFault cause opcode addr s) :=
  ⟨h, _, rfl, rfl⟩

theorem reports_raiseFault (cause : Cause) (w : Word) (addr : Option Word) (s : State) :
    Reports (raiseFault cause (some w) addr s) s.pc w := by
  intro r hr
  obtain rfl := Option.some.inj hr
  exact ⟨rfl, rfl⟩

theorem exec_call_of_full (h : s.sp = 16) (nnn : BitVec 12) :
    exec (.call nnn) s = .next (raiseFault .stackOverflow (some (encode (.call nnn))) none s) :=
  congrArg _ (if_pos h)

theorem exec_call_of_lt (h : s.sp.toNat < 16) (nnn : BitVec 12) :
    exec (.call nnn) s = .next ((s.push (s.pc + 2)).setPc (zext16 nnn)) :=
  congrArg _ (if_neg fun hfull => Nat.ne_of_lt h (congrArg BitVec.toNat hfull))

theorem exec_ret_of_empty (h : s.sp = 0) :
    exec .ret s = .next (raiseFault .stackUnderflow (some (encode .ret)) none s) :=
  congrArg _ (if_pos h)

/-- The SP after the pop is the index of the entry that was pushed last. -/
theorem pop_sp_toNat {j : Nat} (h : s.sp.toNat = j + 1) : s.pop.sp.toNat = j := by
  rw [pop_sp]
  bv_omega

theorem exec_ret_of_pos {j : Nat} (h : s.sp.toNat = j + 1) : exec .ret s = .next (s.pop.setPc (s.stackAt j)) := by
  have hne : s.sp ≠ 0 := fun hempty => Nat.succ_ne_zero j (h.symm.trans (congrArg BitVec.toNat hempty))
  rw [exec, execRet, if_neg hne, pop_sp_toNat h, pop_stackAt]

end Stack

/-- Settles O36: SP decides between the fault and the push, which writes the entry SP points at (`stackAt_push`). -/
theorem callPushesTheReturnAddress : Obligations.CallPushesTheReturnAddress := by
  unfold Obligations.CallPushesTheReturnAddress
  intro s nnn
  have hword : encode (.call nnn) = wordNNN 0x2 nnn := packNNN_eq_wordNNN 0x2 nnn
  refine ⟨decodeWord_of_encode_eq hword, fun hfull => ?_, fun j hj => ?_⟩
  · rw [← hword]
    exact ⟨_, endsInFault_of_raiseFault (exec_call_of_full hfull nnn), reports_raiseFault _ _ _ s,
      raiseFault_frame _ _ _ s⟩
  · have hentry : ∀ k : Fin 16, k.val = s.sp.toNat → Part.stackEntry k = .stackEntry j :=
      fun k hk => congrArg _ (Fin.ext (hk.trans hj))
    exact ⟨_, exec_call_of_lt (hj ▸ j.isLt) nnn, (stackAt_push s _ j).trans (if_pos hj.symm), rfl, zext16_eq_ofNat nnn,
      ((Frame.refl _ s).push (.inr (.inl rfl)) (fun k hk => .inr (.inr (hentry k hk))) _).setPc (.inl rfl) _⟩

/-- Settles O37: SP decides between the fault and the pop, whose new SP points at the entry read (`pop_sp_toNat`). -/
theorem returnPopsTheReturnAddress : Obligations.ReturnPopsTheReturnAddress := by
  unfold Obligations.ReturnPopsTheReturnAddress
  refine ⟨decodeWord_encode .ret, fun s => ⟨fun hempty => ?_, fun j hj => ?_⟩⟩
  · exact ⟨_, endsInFault_of_raiseFault (exec_ret_of_empty hempty), reports_raiseFault _ _ _ s, rfl, rfl⟩
  · exact ⟨_, exec_ret_of_pos hj, pop_sp_toNat hj, rfl, ((Frame.refl _ s).pop (.inr rfl)).setPc (.inl rfl) _⟩

/-- Settles O38: the return reads the entry the call wrote, since SP and the entries are as the call left them. -/
theorem returnUndoesCall : Obligations.ReturnUndoesCall := by
  unfold Obligations.ReturnUndoesCall
  intro s t u nnn hlt hcall husp hustack
  obtain ⟨-, hret⟩ := returnPopsTheReturnAddress
  obtain ⟨-, hpop⟩ := hret u
  obtain ⟨-, -, hpush⟩ := callPushesTheReturnAddress s nnn
  obtain ⟨t', ht', hentry, htsp, -⟩ := hpush ⟨s.sp.toNat, hlt⟩ rfl
  obtain rfl := Host.Outcome.next.inj (hcall.symm.trans ht')
  have hu : u.sp.toNat = s.sp.toNat + 1 := by
    rw [husp, htsp]
    bv_omega
  obtain ⟨w, hw, hwsp, hwpc, -⟩ := hpop ⟨s.sp.toNat, hlt⟩ hu
  exact ⟨w, hw, hwpc.trans ((hustack _).trans hentry), BitVec.eq_of_toNat_eq hwsp⟩

end Sys2Proof.Machine
end

section
/-! PROOF. The register and ALU instructions (42_alu.md). Each is one register write or one `FlagOp`, then the pc write, and its
flag and result functions compute what 42_alu.md says on exact numbers. -/

namespace Sys2Proof.Machine

open Sys2Proof.Claims

/-! ## One register write (R141 to R146, R152) -/

theorem setsRegister_of_setReg {i : Instr} {s : State} {x : Reg} {b : Byte}
    (h : exec i s = .next ((s.setReg x b).advance 2)) : SetsRegister i s x b :=
  ⟨_, h, reg_setReg_self s x b, rfl, ((Frame.refl _ s).setReg (.inr rfl) b).advance (.inl rfl) 2⟩

theorem addResult_toNat (a b : Byte) : (addResult a b).toNat = (a.toNat + b.toNat) % 256 :=
  BitVec.toNat_add a b

/-- Settles O30: each writes one register (`setsRegister_of_setReg`); the sum of 7xkk wraps (`addResult_toNat`). -/
theorem loadsAndLogicWriteVx : Obligations.LoadsAndLogicWriteVx := by
  unfold Obligations.LoadsAndLogicWriteVx
  intro s x y kk
  refine ⟨⟨?_, setsRegister_of_setReg rfl⟩, ⟨?_, ?_⟩, ⟨?_, setsRegister_of_setReg rfl⟩, ⟨?_, setsRegister_of_setReg rfl⟩,
    ⟨?_, setsRegister_of_setReg rfl⟩, ⟨?_, setsRegister_of_setReg rfl⟩⟩
  · exact decodeWord_of_encode_eq (packXKK_eq_wordXKK 0x6 x kk)
  · exact decodeWord_of_encode_eq (packXKK_eq_wordXKK 0x7 x kk)
  · rw [← addResult_toNat, BitVec.ofNat_toNat, BitVec.setWidth_eq]
    exact setsRegister_of_setReg rfl
  · exact decodeWord_of_encode_eq (packXYN_eq_wordXYN 0x8 x y 0x0)
  · exact decodeWord_of_encode_eq (packXYN_eq_wordXYN 0x8 x y 0x1)
  · exact decodeWord_of_encode_eq (packXYN_eq_wordXYN 0x8 x y 0x2)
  · exact decodeWord_of_encode_eq (packXYN_eq_wordXYN 0x8 x y 0x3)

/-- Settles O31: Cxkk writes the masked byte of the Step's inputs to one register. -/
theorem randomByteIsMasked : Obligations.RandomByteIsMasked := by
  unfold Obligations.RandomByteIsMasked
  exact fun s x kk => ⟨decodeWord_of_encode_eq (packXKK_eq_wordXKK 0xC x kk), setsRegister_of_setReg rfl⟩

/-! ## The flag and result functions on exact numbers (R147 to R151) -/

section Values

variable (a b : Byte)

theorem flagByte_decide_toNat (p : Prop) [Decidable p] : (flagByte (decide p)).toNat = if p then 1 else 0 := by
  by_cases h : p <;> simp [flagByte, h]

theorem flagByte_getLsbD_toNat (k : Nat) : (flagByte (a.getLsbD k)).toNat = a.toNat / 2 ^ k % 2 := by
  rw [← Nat.toNat_testBit, ← BitVec.testBit_toNat]
  cases a.toNat.testBit k <;> rfl

theorem carryFlag_toNat : (carryFlag a b).toNat = if a.toNat + b.toNat > 255 then 1 else 0 :=
  flagByte_decide_toNat _

theorem greaterFlag_toNat : (greaterFlag a b).toNat = if a.toNat > b.toNat then 1 else 0 :=
  flagByte_decide_toNat _

theorem lessFlag_toNat : (lessFlag a b).toNat = if b.toNat > a.toNat then 1 else 0 :=
  flagByte_decide_toNat _

theorem lsbFlag_toNat : (lsbFlag a b).toNat = a.toNat % 2 := by
  rw [lsbFlag, flagByte_getLsbD_toNat, Nat.pow_zero, Nat.div_one]

theorem msbFlag_toNat : (msbFlag a b).toNat = a.toNat / 128 := by
  rw [msbFlag, flagByte_getLsbD_toNat]
  omega

theorem subResult_toNat :
    (subResult a b).toNat = if a.toNat ≥ b.toNat then a.toNat - b.toNat else a.toNat + 256 - b.toNat := by
  rw [subResult, BitVec.toNat_sub]
  split <;> omega

theorem subnResult_toNat :
    (subnResult a b).toNat = if b.toNat ≥ a.toNat then b.toNat - a.toNat else b.toNat + 256 - a.toNat :=
  subResult_toNat b a

theorem shrResult_toNat : (shrResult a b).toNat = a.toNat / 2 := by
  rw [shrResult, BitVec.toNat_ushiftRight, Nat.shiftRight_one]

theorem shlResult_toNat : (shlResult a b).toNat = 2 * a.toNat % 256 := by
  rw [shlResult, BitVec.toNat_shiftLeft, Nat.shiftLeft_eq, Nat.mul_comm]

end Values

/-! ## `FlagOp` (R140) -/

/-- The model's byte function is the number function the statements write. -/
def Computes (g : Byte → Byte → Byte) (h : Nat → Nat → Nat) : Prop := ∀ a b, (g a b).toNat = h a.toNat b.toNat

theorem Computes.ofNat_eq {g : Byte → Byte → Byte} {h : Nat → Nat → Nat} (hg : Computes g h) (a b : Byte) :
    BitVec.ofNat 8 (h a.toNat b.toNat) = g a b := by
  rw [← hg a b, BitVec.ofNat_toNat, BitVec.setWidth_eq]

theorem reg_setReg_eq_updateReg (s : State) (r : Reg) (b : Byte) : (s.setReg r b).reg = updateReg s.reg r b :=
  funext fun q => reg_setReg s r q b

section FlagOp

variable {i : Instr} {f r : Byte → Byte → Byte} {x y : Reg} {s : State}

theorem flagOp_reg {f' r' : Nat → Nat → Nat} (hf : Computes f f') (hr : Computes r r') :
    (flagOp f r x y s).reg = regsAfterFlagOp s.params.flagOrder f' r' x y s.reg := by
  cases horder : s.params.flagOrder <;>
    simp only [flagOp, regsAfterFlagOp, horder, reg_setReg_eq_updateReg, hf.ofNat_eq, hr.ofNat_eq]

/-- Besides VF and X, a flag instruction writes the pc only. -/
theorem flagOp_advance_pc_frame :
    ((flagOp f r x y s).advance 2).pc = s.pc + 2 ∧
      Frame (fun p => p = .pc ∨ p = .reg x ∨ p = .reg vf) s ((flagOp f r x y s).advance 2) := by
  constructor
  · obtain ⟨c, hc⟩ | ⟨c, hc⟩ := flagOp_cases f r x y s <;> rw [hc] <;> rfl
  · exact (flagOp_frame (.inr (.inl rfl)) (.inr (.inr rfl)) f r y s).advance (.inl rfl) 2

theorem runsFlagOp_of_flagOp {f' r' : Nat → Nat → Nat} (h : exec i s = .next ((flagOp f r x y s).advance 2))
    (hf : Computes f f') (hr : Computes r r') : RunsFlagOp i f' r' x y s :=
  ⟨_, h, congrFun (flagOp_reg hf hr), flagOp_advance_pc_frame⟩

/-- With no operand in VF the flag write disturbs neither the second read nor the result. -/
theorem flagOp_reg_result (hx : x ≠ vf) (hy : y ≠ vf) : (flagOp f r x y s).reg x = r (s.reg x) (s.reg y) := by
  cases horder : s.params.flagOrder <;>
    simp only [flagOp, horder, reg_setReg_self, reg_setReg_of_ne _ hx, reg_setReg_of_ne _ hy]

theorem setsRegisterAndFlag_of_flagOp {result flag : Nat} (h : exec i s = .next ((flagOp f r x y s).advance 2))
    (hx : x ≠ vf) (hy : y ≠ vf) (hresult : (r (s.reg x) (s.reg y)).toNat = result)
    (hflag : (f (s.reg x) (s.reg y)).toNat = flag) : SetsRegisterAndFlag i s x result flag :=
  ⟨_, h, (congrArg BitVec.toNat (flagOp_reg_result hx hy)).trans hresult,
    (congrArg BitVec.toNat (flagOp_reg_vf (.inl hx) f r y)).trans hflag, flagOp_advance_pc_frame⟩

end FlagOp

/-- Settles O32: each is `FlagOp` (`runsFlagOp_of_flagOp`) over functions that compute the statement's numbers. -/
theorem flagInstructionsFollowFlagOrder : Obligations.FlagInstructionsFollowFlagOrder := by
  unfold Obligations.FlagInstructionsFollowFlagOrder
  intro s x y
  refine ⟨⟨?_, runsFlagOp_of_flagOp rfl carryFlag_toNat addResult_toNat⟩,
    ⟨?_, runsFlagOp_of_flagOp rfl greaterFlag_toNat subResult_toNat⟩,
    ⟨?_, runsFlagOp_of_flagOp rfl lsbFlag_toNat shrResult_toNat⟩,
    ⟨?_, runsFlagOp_of_flagOp rfl lessFlag_toNat subnResult_toNat⟩,
    ⟨?_, runsFlagOp_of_flagOp rfl msbFlag_toNat shlResult_toNat⟩⟩
  · exact decodeWord_of_encode_eq (packXYN_eq_wordXYN 0x8 x y 0x4)
  · exact decodeWord_of_encode_eq (packXYN_eq_wordXYN 0x8 x y 0x5)
  · exact decodeWord_of_encode_eq (packXYN_eq_wordXYN 0x8 x y 0x6)
  · exact decodeWord_of_encode_eq (packXYN_eq_wordXYN 0x8 x y 0x7)
  · exact decodeWord_of_encode_eq (packXYN_eq_wordXYN 0x8 x y 0xE)

/-- Settles O33: with no operand in VF each `FlagOp` leaves both its values (`setsRegisterAndFlag_of_flagOp`). -/
theorem flagInstructionsOnPlainRegisters : Obligations.FlagInstructionsOnPlainRegisters := by
  unfold Obligations.FlagInstructionsOnPlainRegisters
  rintro s x y _ _ hx hy rfl rfl
  have hmsb : (msbFlag (s.reg x) (s.reg y)).toNat = if (s.reg x).toNat ≥ 128 then 1 else 0 := by
    rw [msbFlag_toNat]
    split <;> omega
  exact ⟨setsRegisterAndFlag_of_flagOp rfl hx hy (addResult_toNat _ _) (carryFlag_toNat _ _),
    setsRegisterAndFlag_of_flagOp rfl hx hy (subResult_toNat _ _) (greaterFlag_toNat _ _),
    setsRegisterAndFlag_of_flagOp rfl hx hy (shrResult_toNat _ _) (lsbFlag_toNat _ _),
    setsRegisterAndFlag_of_flagOp rfl hx hy (subnResult_toNat _ _) (lessFlag_toNat _ _),
    setsRegisterAndFlag_of_flagOp rfl hx hy (shlResult_toNat _ _) hmsb⟩

end Sys2Proof.Machine
end

section
/-! PROOF. The index register and memory instructions (43_index_memory.md). Annn, Fx1E and Fx29 write I; Fx33, Fx55 and Fx65 are a
range check, then an access to the bytes at I. -/

namespace Sys2Proof.Machine

open Sys2Proof.Claims

/-! ## Annn and Fx29 (R170, R172) -/

theorem zext16_toNat (nnn : BitVec 12) : (zext16 nnn).toNat = nnn.toNat :=
  BitVec.toNat_setWidth_of_le (by decide)

/-- The largest glyph address, 0xFF * 5, is a word: nothing is reduced. -/
theorem glyphAddress_toNat (v : Byte) : (glyphAddress v).toNat = v.toNat * 5 := by
  rw [glyphAddress, BitVec.toNat_ofNat, Config.fontBase]
  omega

theorem setIndex_advance_frame (s : State) (a : Word) :
    Frame (fun p => p = .pc ∨ p = .index) s ((s.setIndex a).advance 2) :=
  ((Frame.refl _ s).setIndex (.inr rfl) a).advance (.inl rfl) 2

/-- Settles O39: each is a write of I and the pc write. -/
theorem indexLoads : Obligations.IndexLoads := by
  unfold Obligations.IndexLoads
  intro s x nnn
  refine ⟨⟨?_, _, rfl, zext16_toNat nnn, rfl, setIndex_advance_frame s _⟩,
    ⟨?_, _, rfl, glyphAddress_toNat (s.reg x), rfl, setIndex_advance_frame s _⟩⟩
  · exact decodeWord_of_encode_eq (packNNN_eq_wordNNN 0xA nnn)
  · exact decodeWord_of_encode_eq (packXKK_eq_wordXKK 0xF x 0x29)

/-! ## Fx1E (R171) -/

theorem indexFlag_toNat (index : Word) (v : Byte) :
    (indexFlag index v).toNat = if index.toNat + v.toNat > 0xFFF then 1 else 0 :=
  flagByte_decide_toNat _

theorem addToIndex_toNat (index : Word) (v : Byte) : (addToIndex index v).toNat = (index.toNat + v.toNat) % 65536 := by
  rw [addToIndex, BitVec.toNat_add, BitVec.toNat_setWidth_of_le (by decide)]

section AddIndex

variable (x : Reg) (s : State)

theorem indexOp_reg_vf : (indexOp x s).reg vf = indexFlag s.index (s.reg x) := by
  obtain ⟨a, ha⟩ := indexOp_cases x s
  rw [ha, setIndex_reg, reg_setReg_self]

theorem indexOp_pc : (indexOp x s).pc = s.pc := by
  obtain ⟨a, ha⟩ := indexOp_cases x s
  rw [ha, setIndex_pc, setReg_pc]

/-- SEQUENTIAL adds what Vx holds after the flag write, which is the flag for X = F. -/
theorem indexOp_index : (indexOp x s).index = addToIndex s.index
    (if s.params.flagOrder = .sequential ∧ x = vf then indexFlag s.index (s.reg x) else s.reg x) := by
  cases horder : s.params.flagOrder with
  | sequential => simp only [indexOp, horder, setIndex_index, reg_setReg, true_and]
  | flagThenResult | resultThenFlag => simp only [indexOp, horder, setIndex_index, reduceCtorEq, false_and, if_false]

end AddIndex

/-- Settles O40: `indexOp` gives VF and I for every order, and their values are those of `indexFlag` and `addToIndex`. -/
theorem addToIndexSetsOverflowFlag : Obligations.AddToIndexSetsOverflowFlag := by
  unfold Obligations.AddToIndexSetsOverflowFlag
  rintro s x _ _ rfl rfl
  refine ⟨decodeWord_of_encode_eq (packXKK_eq_wordXKK 0xF x 0x1E), _, rfl, ?_, ?_, ?_, ?_⟩
  · rw [advance_reg, indexOp_reg_vf, indexFlag_toNat]
  · rw [advance_index, indexOp_index, addToIndex_toNat, apply_ite BitVec.toNat, indexFlag_toNat]
  · exact congrArg (· + 2) (indexOp_pc x s)
  · exact (indexOp_frame (.inr (.inr rfl)) (.inr (.inl rfl)) x s).advance (.inl rfl) 2

/-! ## The range check of an access at I (20_memory.md R63) -/

section Range

variable {i : Instr} {s : State} {len : Nat} {effect : State → State}

theorem withRange_of_inRange (h : s.index.toNat + len ≤ Config.memSize) : withRange len i s effect = effect s := by
  rw [withRange, (checkRange_eq_none_iff _ _).2 (.inr h)]

theorem endsInFault_of_outOfRange (hexec : exec i s = .next (withRange len i s effect)) (hlen : 0 < len)
    (h : Config.memSize < s.index.toNat + len) :
    ∃ addr, EndsInFault i s .outOfBounds (raiseFault .outOfBounds (some (encode i)) (some addr) s) := by
  obtain ⟨hok, -⟩ | ⟨addr, -, hfault⟩ := withRange_cases len i s effect
  · have hfits := (checkRange_eq_none_iff _ _).1 hok
    omega
  · exact ⟨addr, endsInFault_of_raiseFault (hexec.trans (congrArg _ hfault))⟩

end Range

/-! ## Stores at I (R173, R174) -/

/-- A store writes the bytes of its range and no other part. -/
theorem Frame.writeBytes {c : Part → Prop} {s t : State} (h : Frame c s t) (hm : Memory.wf t.mem) {a : Nat}
    {bs : List Byte} (hc : ∀ b, a ≤ b → b < a + bs.length → c (.byte b)) :
    Frame c s (t.setMem (t.mem.writeBytes a bs)) := by
  intro p hp
  cases p with
  | byte b =>
    have hout : b < a ∨ a + bs.length ≤ b := by
      by_contra hin
      exact hp (hc b (by omega) (by omega))
    exact (Memory.read_writeBytes_of_outside hm hout).trans (h _ hp)
  | _ => exact h _ hp

theorem exec_ldBcd_of_inRange {s : State} (x : Reg) (h : s.index.toNat + 3 ≤ Config.memSize) :
    exec (.ldBcd x) s = .next ((s.setMem (s.mem.writeBytes s.index.toNat (bcdDigits (s.reg x)))).advance 2) :=
  congrArg _ (withRange_of_inRange h)

/-- The digits read back as numbers, hundreds first. -/
theorem read_writeBytes_bcdDigits {m : Memory} (hm : m.wf) {a : Nat} (h : a + 3 ≤ Config.memSize) (v : Byte) :
    ((m.writeBytes a (bcdDigits v)).read a).toNat = v.toNat / 100 ∧
      ((m.writeBytes a (bcdDigits v)).read (a + 1)).toNat = v.toNat / 10 % 10 ∧
      ((m.writeBytes a (bcdDigits v)).read (a + 2)).toNat = v.toNat % 10 := by
  have hread : ∀ k (hk : k < 3), (m.writeBytes a (bcdDigits v)).read (a + k) = (bcdDigits v)[k] :=
    fun k hk => Memory.read_writeBytes hm (bs := bcdDigits v) k hk h
  refine ⟨?_, ?_, ?_⟩
  · exact (congrArg BitVec.toNat (hread 0 (by decide))).trans (Nat.mod_eq_of_lt (by omega))
  · exact (congrArg BitVec.toNat (hread 1 (by decide))).trans (Nat.mod_eq_of_lt (by omega))
  · exact (congrArg BitVec.toNat (hread 2 (by decide))).trans (Nat.mod_eq_of_lt (by omega))

/-- Settles O41: the digits are written in range and read back; out of range the check raises the fault. -/
theorem bcdStoresThreeDigits : Obligations.BcdStoresThreeDigits := by
  unfold Obligations.BcdStoresThreeDigits
  intro s x hm
  refine ⟨decodeWord_of_encode_eq (packXKK_eq_wordXKK 0xF x 0x33), fun hout => ?_, fun hin => ?_⟩
  · obtain ⟨addr, hfault⟩ := endsInFault_of_outOfRange (i := .ldBcd x) rfl (by decide) (Nat.succ_lt_succ hout)
    exact ⟨_, hfault⟩
  · have hend : s.index.toNat + 3 ≤ Config.memSize := Nat.succ_le_succ hin
    obtain ⟨hundreds, htens, hunits⟩ := read_writeBytes_bcdDigits hm hend (s.reg x)
    exact ⟨_, exec_ldBcd_of_inRange x hend, hundreds, htens, hunits, rfl,
      ((Frame.refl _ s).writeBytes hm fun a hlow hhigh => .inr ⟨a, rfl, hlow, hhigh⟩).advance (.inl rfl) 2⟩

/-- Settles O42: V0..Vx are written in range and read back; out of range the check raises the fault. -/
theorem storeRegistersWritesMemory : Obligations.StoreRegistersWritesMemory := by
  unfold Obligations.StoreRegistersWritesMemory
  intro s x hm
  refine ⟨decodeWord_of_encode_eq (packXKK_eq_wordXKK 0xF x 0x55), fun hout => ?_, fun hin => ?_⟩
  · obtain ⟨addr, hfault⟩ :=
      endsInFault_of_outOfRange (i := .storeRegs x) rfl (Nat.succ_pos _) (Nat.succ_lt_succ hout)
    exact ⟨_, hfault⟩
  · refine ⟨_, exec_storeRegs_of_inRange hin, fun j hj => read_writeBytes_regsBelow hm hj hin, rfl,
      ((Frame.refl _ s).writeBytes hm fun a hlow hhigh => .inr ⟨a, rfl, hlow, ?_⟩).advance (.inl rfl) 2⟩
    rw [regsBelow_length] at hhigh
    omega

/-! ## Loads from I (R175) -/

theorem exec_loadRegs_of_inRange {s : State} {x : Reg} (h : s.index.toNat + x.val ≤ 0xFFF) :
    exec (.loadRegs x) s =
      .next ((s.setRegs (loadPrefix s.v 0 (s.mem.readBytes s.index.toNat (x.val + 1)))).advance 2) :=
  congrArg _ (withRange_of_inRange (Nat.succ_le_succ h))

/-- Fx65 loads each register up to Vx from its own place in the range. -/
theorem loadPrefix_readBytes_of_le (s : State) {x q : Reg} (hq : q ≤ x) :
    (loadPrefix s.v 0 (s.mem.readBytes s.index.toNat (x.val + 1)))[q.val] = s.mem.read (s.index.toNat + q.val) := by
  have hlen : 0 ≤ q.val ∧ q.val - 0 < (s.mem.readBytes s.index.toNat (x.val + 1)).length := by
    rw [Memory.readBytes_length]
    exact ⟨Nat.zero_le _, Nat.lt_succ_of_le hq⟩
  rw [loadPrefix_getElem, dif_pos hlen, Memory.readBytes_getElem, Nat.sub_zero]

/-- Settles O43: in range the registers up to Vx are loaded and the others kept; the fault writes no register. -/
theorem loadRegistersReadsMemory : Obligations.LoadRegistersReadsMemory := by
  unfold Obligations.LoadRegistersReadsMemory
  intro s x
  refine ⟨decodeWord_of_encode_eq (packXKK_eq_wordXKK 0xF x 0x65), fun hout => ?_, fun hin => ?_⟩
  · obtain ⟨addr, hfault⟩ :=
      endsInFault_of_outOfRange (i := .loadRegs x) rfl (Nat.succ_pos _) (Nat.succ_lt_succ hout)
    exact ⟨_, hfault, raiseFault_reg s _ _ _⟩
  · have hkept : ∀ q : Reg, ¬ (Part.reg q = .pc ∨ ∃ j : Reg, Part.reg q = .reg j ∧ j ≤ x) →
        (loadPrefix s.v 0 (s.mem.readBytes s.index.toNat (x.val + 1)))[q.val] = s.reg q :=
      fun q hq => loadPrefix_readBytes_of_gt s fun hle => hq (.inr ⟨q, rfl, hle⟩)
    exact ⟨_, exec_loadRegs_of_inRange hin, fun j hj => loadPrefix_readBytes_of_le s hj, rfl,
      ((Frame.refl _ s).setRegs hkept).advance (.inl rfl) 2⟩

end Sys2Proof.Machine
end

section
/-! PROOF. Keys and timers (44_keys_timers.md). Ex9E and ExA1 are a key index, then a fault or a skip; Fx0A only starts the wait,
and the Steps of a waiting core are its polls; Fx07, Fx15 and Fx18 move one byte. -/

namespace Sys2Proof.Machine

open Sys2Proof.Claims

/-! ## Ex9E and ExA1 (R190 to R192) -/

theorem keyIndex_fault_eq_none {v : Byte} (h : 0xF < v.toNat) : keyIndex .fault v = none :=
  if_neg (Nat.not_le.2 h)

/-- A value up to 0xF names its key under both policies, a larger one the key of its low nibble under LOW_NIBBLE. -/
theorem keyIndex_eq_some {policy : KeyIndexPolicy} {v : Byte} {k : Nat}
    (h : (v.toNat ≤ 0xF ∧ k = v.toNat) ∨ (0xF < v.toNat ∧ policy = .lowNibble ∧ k = v.toNat % 16)) :
    keyIndex policy v = some k := by
  obtain ⟨hle, rfl⟩ | ⟨hlt, rfl, rfl⟩ := h
  · exact if_pos hle
  · exact if_neg (Nat.not_le.2 hlt)

section KeySkip

variable {s : State} {i : Instr} {x : Reg} {wanted : Bool}

theorem raisesFault_of_skipOnKey {w : Word} (hexec : exec i s = .next (skipOnKey x i wanted s)) (hw : encode i = w)
    (hkey : keyIndex s.params.keyIndexPolicy (s.reg x) = none) :
    RaisesFault i s .invalidKeyIndex w (some (BitVec.ofNat 16 (s.reg x).toNat)) := by
  rw [skipOnKey, hkey, hw] at hexec
  rw [BitVec.ofNat_toNat]
  exact ⟨_, hexec, rfl, rfl, raiseFault_frame _ _ _ s⟩

/-- With a key to test, the instruction skips when the key is in the state it wants. -/
theorem setsPc_of_skipOnKey {k : Nat} (hexec : exec i s = .next (skipOnKey x i wanted s))
    (hkey : keyIndex s.params.keyIndexPolicy (s.reg x) = some k) :
    (s.now.keys.getLsbD k = wanted → SetsPc i s (s.pc + 4)) ∧
      (s.now.keys.getLsbD k = !wanted → SetsPc i s (s.pc + 2)) := by
  rw [skipOnKey, hkey] at hexec
  exact setsPc_of_skipIf hexec beq_iff_eq (beq_eq_false_iff_ne.trans Bool.eq_not.symm)

end KeySkip

/-- Settles O47: the key index decides between the fault (`raisesFault_of_skipOnKey`) and the skip (`setsPc_of_skipOnKey`). -/
theorem keySkipsTestOneKey : Obligations.KeySkipsTestOneKey := by
  unfold Obligations.KeySkipsTestOneKey
  rintro s x _ k rfl
  have hskp : encode (.skp x) = wordXKK 0xE x 0x9E := packXKK_eq_wordXKK 0xE x 0x9E
  have hsknp : encode (.sknp x) = wordXKK 0xE x 0xA1 := packXKK_eq_wordXKK 0xE x 0xA1
  refine ⟨decodeWord_of_encode_eq hskp, decodeWord_of_encode_eq hsknp, fun hlarge hpolicy => ?_, fun hnamed => ?_⟩
  · have hkey : keyIndex s.params.keyIndexPolicy (s.reg x) = none := by
      rw [hpolicy]
      exact keyIndex_fault_eq_none hlarge
    exact ⟨raisesFault_of_skipOnKey rfl hskp hkey, raisesFault_of_skipOnKey rfl hsknp hkey⟩
  · have hkey : keyIndex s.params.keyIndexPolicy (s.reg x) = some k := keyIndex_eq_some hnamed
    obtain ⟨hskpHeld, hskpFree⟩ := setsPc_of_skipOnKey (i := .skp x) rfl hkey
    obtain ⟨hsknpFree, hsknpHeld⟩ := setsPc_of_skipOnKey (i := .sknp x) rfl hkey
    exact ⟨fun hheld => ⟨hskpHeld hheld, hsknpHeld hheld⟩, fun hfree => ⟨hskpFree hfree, hsknpFree hfree⟩⟩

/-! ## The key wait (R194, R195) -/

/-- Settles O49: Fx0A is a write of the wait. -/
theorem keyWaitStartsWithoutPolling : Obligations.KeyWaitStartsWithoutPolling := by
  unfold Obligations.KeyWaitStartsWithoutPolling
  exact fun s x => ⟨decodeWord_of_encode_eq (packXKK_eq_wordXKK 0xF x 0x0A), _, rfl, rfl, rfl,
    (Frame.refl (· = .wait) s).setWait rfl _⟩

theorem step_eq_waitPoll {s : State} {x : Reg} (hf : s.fault = none) (hw : s.wait = some x) :
    step s = .next (waitPoll x (beginStep s)) := by
  have hrunning : (beginStep s).halted = false := (not_halted_iff s).2 hf
  simp [step, stepEvent, hrunning, hw]

/-- A poll's writes beside the turn's own parts. -/
theorem waitPoll_beginStep_frame (x : Reg) (s : State) :
    Frame (fun p => ByTurn p ∨ p = .reg x ∨ p = .wait ∨ p = .pc) s (waitPoll x (beginStep s)) := by
  intro p hp
  obtain ⟨hturn, hpoll⟩ := not_or.1 hp
  exact (same_beginStep_iff hturn s _).1 (waitPoll_frame x _ p hpoll)

theorem waitPoll_of_no_key {s : State} (h : s.now.keys = 0) (x : Reg) : waitPoll x s = s :=
  if_pos h

theorem waitPoll_of_key {s : State} (h : s.now.keys ≠ 0) (x : Reg) :
    waitPoll x s = ((s.setReg x (BitVec.ofNat 8 (chooseKey s.now))).setWait none).advance 2 :=
  if_neg h

/-- The index of a held key fits the register it is written to. -/
theorem waitPoll_reg_toNat {s : State} (h : s.now.keys ≠ 0) (x : Reg) :
    ((waitPoll x s).reg x).toNat = chooseKey s.now := by
  obtain ⟨hlt, -⟩ := chooseKey_held s.now h
  rw [waitPoll_of_key h, advance_reg, setWait_reg, reg_setReg_self, BitVec.toNat_ofNat]
  omega

theorem chooseKey_eq_pick {inp : Sample} (h : inp.keys.getLsbD inp.pick.val = true) : chooseKey inp = inp.pick.val :=
  if_pos h

/-- Settles O50: the Step is a poll (`step_eq_waitPoll`), which does nothing or ends the wait on a key that is held
(`chooseKey_held`). -/
theorem waitResolvesOnAHeldKey : Obligations.WaitResolvesOnAHeldKey := by
  unfold Obligations.WaitResolvesOnAHeldKey
  intro s x hf hw
  refine ⟨fun hnone => ?_, fun hsome => ?_⟩
  · have hidle : waitPoll x (beginStep s) = beginStep s := waitPoll_of_no_key hnone x
    exact ⟨_, (step_eq_waitPoll hf hw).trans (congrArg _ hidle), rfl, beginStep_frame s⟩
  · have hkeys : (beginStep s).now.keys ≠ 0 := hsome
    obtain ⟨hlt, hheld⟩ := chooseKey_held s.nextTurn.sample hsome
    have hstep := step_eq_waitPoll hf hw
    have hreg := waitPoll_reg_toNat hkeys x
    have hframe := waitPoll_beginStep_frame x s
    rw [waitPoll_of_key hkeys] at hstep hreg hframe
    exact ⟨_, _, hstep, hlt, hheld, hreg, rfl, rfl, rfl, chooseKey_eq_pick, hframe⟩

/-! ## The timer moves (R193, R196, R197) -/

/-- The tone sounds for any value of ST but 0 (10_state.md R54). -/
theorem tone_iff (s : State) : s.tone = true ↔ s.st ≠ 0 :=
  bne_iff_ne

/-- Settles O48: each writes one register or one timer, then the pc. -/
theorem timerMoves : Obligations.TimerMoves := by
  unfold Obligations.TimerMoves
  intro s x
  refine ⟨⟨?_, setsRegister_of_setReg rfl⟩,
    ⟨?_, _, rfl, rfl, rfl, ((Frame.refl _ s).setDt (.inr rfl) _).advance (.inl rfl) 2⟩,
    ⟨?_, _, rfl, rfl, tone_iff _, rfl, ((Frame.refl _ s).setSt (.inr rfl) _).advance (.inl rfl) 2⟩⟩
  · exact decodeWord_of_encode_eq (packXKK_eq_wordXKK 0xF x 0x07)
  · exact decodeWord_of_encode_eq (packXKK_eq_wordXKK 0xF x 0x15)
  · exact decodeWord_of_encode_eq (packXKK_eq_wordXKK 0xF x 0x18)

end Sys2Proof.Machine
end

section
/-! PROOF. Faults (60_exceptions.md R210 to R215). A fault of a step is one `raiseFault` on the state at the start of the Step,
with a cause of the table under its condition; the core it halts answers every later Tick and Step with the same state. -/

namespace Sys2Proof.Machine

open Sys2Proof.Claims

/-! ## Halted cores (R215) -/

section Halted

variable {s : State}

theorem tick_of_halted (hf : s.fault ≠ none) : tick s = s :=
  if_pos (Option.isSome_iff_ne_none.2 hf)

theorem step_of_halted (hf : s.fault ≠ none) : step s = .next (beginStep s) :=
  if_pos ((halted_iff s).2 hf)

/-- The Ticks of its turn do not reach the timers of a halted core. -/
theorem beginStep_frame_of_halted (hf : s.fault ≠ none) :
    Frame (fun p => p = .fbChanged ∨ p = .environment) s (beginStep s) := by
  have hsome : s.fault.isSome = true := Option.isSome_iff_ne_none.2 hf
  intro p hp
  cases p with
  | dt => exact (beginStep_dt s).trans (if_pos hsome)
  | st => exact (beginStep_st s).trans (if_pos hsome)
  | fbChanged => exact absurd (.inl rfl) hp
  | environment => exact absurd (.inr rfl) hp
  | _ => rfl

end Halted

/-- Settles O10: a halted core's Tick is the identity, and its Step ends where the turn's part ends (`step_of_halted`). -/
theorem haltedCoreChangesNothing : Obligations.HaltedCoreChangesNothing := by
  unfold Obligations.HaltedCoreChangesNothing
  exact fun s hf => ⟨tick_of_halted hf, _, step_of_halted hf, rfl, rfl, beginStep_frame_of_halted hf⟩

/-- Settles O12: an instruction ends in a fault or writes its parts (`exec_faultsOrWrites`), both next states, and so do the
other things a Step event can do. -/
theorem everyStepAnswersNext : Obligations.EveryStepAnswersNext := by
  unfold Obligations.EveryStepAnswersNext
  have hexec (i : Instr) (s : State) : ∃ t, exec i s = .next t :=
    (exec_faultsOrWrites i s).imp fun _ => And.left
  refine ⟨hexec, fun s => ?_⟩
  obtain ⟨-, h⟩ | ⟨-, _, -, h⟩ | ⟨-, -, _, -, h⟩ | ⟨-, -, -, -, h⟩ | ⟨-, -, -, i, -, h⟩ := stepEvent_cases (beginStep s)
  · exact ⟨_, h⟩
  · exact ⟨_, h⟩
  · exact ⟨_, h⟩
  · exact ⟨_, h⟩
  · obtain ⟨t, ht⟩ := hexec i (beginStep s)
    exact ⟨t, h.trans ht⟩

/-! ## Illegal words (R211) -/

theorem decodeWord_eq_none_iff (w : Word) : decodeWord w = none ↔ wordWellFormed w = false := by
  rw [← Laws.RowMatch.isSome_decodeWord, Option.isSome_eq_false_iff, Option.isNone_iff_eq_none]

theorem step_eq_unknownOpcode {s : State} (hf : s.fault = none) (hw : s.wait = none) (hpc : s.pc.toNat ≤ 0xFFE)
    (hword : wordWellFormed (fetchWord s) = false) : step s = .next (unknownOpcode (fetchWord s) (beginStep s)) := by
  have hrunning : (beginStep s).halted = false := (not_halted_iff s).2 hf
  have hcheck : fetchCheck s = none := (fetchCheck_eq_none_iff s).2 (Nat.add_lt_of_lt_sub (Nat.lt_succ_of_le hpc))
  have hdecode : decodeWord (fetchWord s) = none := (decodeWord_eq_none_iff _).2 hword
  simp [step, stepEvent, hrunning, hw, hcheck, hdecode]

/-- Settles O8: the step raises the fault (`step_eq_unknownOpcode`), which halts the core (`step_of_halted`). -/
theorem unknownOpcodeIsFatal : Obligations.UnknownOpcodeIsFatal := by
  unfold Obligations.UnknownOpcodeIsFatal
  rintro s _ hf hw hpc rfl hword
  exact ⟨_, step_eq_unknownOpcode hf hw hpc hword, ⟨_, rfl, rfl⟩, reports_raiseFault _ _ _ (beginStep s), _,
    step_of_halted (Option.some_ne_none _), rfl, rfl⟩

/-- Settles O9: each of the three is a `raiseFault` without an address. -/
theorem faultsWithoutAddressAreRecorded : Obligations.FaultsWithoutAddressAreRecorded := by
  unfold Obligations.FaultsWithoutAddressAreRecorded
  refine fun s => ⟨fun hf hw hpc hword => ?_, fun hfull nnn => ?_, fun hempty => ?_⟩
  · exact ⟨_, step_eq_unknownOpcode hf hw hpc hword, rfl, rfl, raiseFault_beginStep_frame _ _ _ s⟩
  · have hword : encode (.call nnn) = wordNNN 0x2 nnn := packNNN_eq_wordNNN 0x2 nnn
    rw [← hword]
    exact ⟨_, exec_call_of_full hfull nnn, rfl, rfl, raiseFault_frame _ _ _ s⟩
  · exact ⟨_, exec_ret_of_empty hempty, rfl, rfl, raiseFault_frame _ _ _ s⟩

/-! ## Every fault of a step (R213, R214) -/

/-- A poll raises no fault. -/
theorem waitPoll_fault (x : Reg) (s : State) : (waitPoll x s).fault = s.fault :=
  waitPoll_frame x s .fault (by simp)

/-- An instruction that ends with a fault in a running core has written its record and nothing else. -/
theorem eq_raiseFault_of_exec {i : Instr} {s t : State} (hf : s.fault = none) (h : exec i s = .next t)
    (ht : t.fault ≠ none) : ∃ cause opcode addr, t = raiseFault cause opcode addr s := by
  obtain ⟨cause, addr, rfl⟩ | hframe := faultsOrWrites_of_exec h
  · exact ⟨cause, _, addr, rfl⟩
  · have hsame : t.fault = s.fault := hframe .fault id
    exact absurd (hsame.trans hf) ht

/-- The same for a step, after the scheduler's part of the turn. -/
theorem eq_raiseFault_of_step {s t : State} (hf : s.fault = none) (h : step s = .next t) (ht : t.fault ≠ none) :
    ∃ cause opcode addr, t = raiseFault cause opcode addr (beginStep s) := by
  obtain ⟨hhalted, -⟩ | ⟨-, x, -, rfl⟩ | ⟨-, -, hraise⟩ | ⟨i, -, hexec⟩ := step_cases h
  · exact absurd hf hhalted
  · exact absurd ((waitPoll_fault x (beginStep s)).trans hf) ht
  · exact hraise
  · exact eq_raiseFault_of_exec hf hexec ht

/-- Settles O11: the step is a `raiseFault` (`eq_raiseFault_of_step`) after the turn's part. -/
theorem faultIsPrecise : Obligations.FaultIsPrecise := by
  unfold Obligations.FaultIsPrecise
  intro s t r hf h hr
  obtain ⟨cause, opcode, addr, rfl⟩ := eq_raiseFault_of_step hf h (hr ▸ Option.some_ne_none r)
  obtain rfl := Option.some.inj hr
  obtain ⟨hdt, hst⟩ := beginStep_timers_decayed hf
  exact ⟨rfl, rfl, hdt, hst, raiseFault_beginStep_frame cause opcode addr s⟩

/-! ## The conditions of the causes (R210) -/

/-- The instructions that raise a cause, each with the condition of the table. -/
def RaisedBy (i : Instr) (s : State) : Cause → Prop
  | .outOfBounds =>
    (∃ x y n, i = .drw x y n ∧ 0 < n.toNat ∧ s.index.toNat + n.toNat - 1 > 0xFFF) ∨
    (∃ x, i = .ldBcd x ∧ s.index.toNat + 2 > 0xFFF) ∨
    ∃ x, (i = .storeRegs x ∨ i = .loadRegs x) ∧ s.index.toNat + x.val > 0xFFF
  | .unknownOpcode => False
  | .stackOverflow => s.sp = 16 ∧ ∃ nnn, i = .call nnn
  | .stackUnderflow => s.sp = 0 ∧ i = .ret
  | .invalidKeyIndex =>
    s.params.keyIndexPolicy = .fault ∧ ∃ x, 0xF < (s.reg x).toNat ∧ (i = .skp x ∨ i = .sknp x)

/-- A value names no key only under FAULT and above 0xF (44_keys_timers.md R190). -/
theorem keyIndex_eq_none {policy : KeyIndexPolicy} {v : Byte} (h : keyIndex policy v = none) :
    policy = .fault ∧ 0xF < v.toNat := by
  unfold keyIndex at h
  split at h
  · exact absurd h nofun
  · rename_i hle
    cases policy with
    | fault => exact ⟨rfl, Nat.lt_of_not_le hle⟩
    | lowNibble => exact absurd h nofun

/-- The fault recorded in `t`, if any, has a cause that `i` raises in `s`. -/
def FaultsAsListed (i : Instr) (s t : State) : Prop := ∀ r, t.fault = some r → RaisedBy i s r.cause

section Conditions

variable {i : Instr} {s t : State}

theorem faultsAsListed_of_running (ht : t.fault = none) : FaultsAsListed i s t :=
  fun _ hr => absurd (ht.symm.trans hr) nofun

theorem faultsAsListed_of_raiseFault {cause : Cause} {opcode addr : Option Word} (h : RaisedBy i s cause) :
    FaultsAsListed i s (raiseFault cause opcode addr s) := by
  intro r hr
  obtain rfl := Option.some.inj hr
  exact h

theorem withRange_faultsAsListed {len : Nat} {effect : State → State} (heffect : (effect s).fault = none)
    (hout : 0 < len → s.index.toNat + len - 1 > 0xFFF → RaisedBy i s .outOfBounds) :
    FaultsAsListed i s (withRange len i s effect) := by
  obtain ⟨-, hok⟩ | ⟨addr, haddr, hfault⟩ := withRange_cases len i s effect
  · rw [hok]
    exact faultsAsListed_of_running heffect
  · obtain ⟨hlen, hsize, -⟩ := (checkRange_eq_some_iff _ _ _).1 haddr
    rw [hfault]
    exact faultsAsListed_of_raiseFault (hout hlen (Nat.lt_sub_of_add_lt hsize))

theorem skipOnKey_faultsAsListed (hf : s.fault = none) {x : Reg} (hi : i = .skp x ∨ i = .sknp x) (wanted : Bool) :
    FaultsAsListed i s (skipOnKey x i wanted s) := by
  obtain ⟨hkey, hfault⟩ | ⟨k, -, hskip⟩ := skipOnKey_cases x i wanted s
  · obtain ⟨hpolicy, hlarge⟩ := keyIndex_eq_none hkey
    rw [hfault]
    exact faultsAsListed_of_raiseFault ⟨hpolicy, x, hlarge, hi⟩
  · rw [hskip]
    exact faultsAsListed_of_running hf

theorem ret_faultsAsListed (hf : s.fault = none) : ∃ t, exec .ret s = .next t ∧ FaultsAsListed .ret s t := by
  refine ⟨_, rfl, ?_⟩
  split
  · exact faultsAsListed_of_raiseFault ⟨‹_›, rfl⟩
  · exact faultsAsListed_of_running hf

theorem call_faultsAsListed (hf : s.fault = none) (nnn : BitVec 12) :
    ∃ t, exec (.call nnn) s = .next t ∧ FaultsAsListed (.call nnn) s t := by
  refine ⟨_, rfl, ?_⟩
  split
  · exact faultsAsListed_of_raiseFault ⟨‹_›, nnn, rfl⟩
  · exact faultsAsListed_of_running hf

/-- FlagOp writes registers only. -/
theorem flagOp_fault (f r : Byte → Byte → Byte) (x y : Reg) (s : State) : (flagOp f r x y s).fault = s.fault :=
  flagOp_frame (c := (· ≠ .fault)) (by simp) (by simp) f r y s .fault (by simp)

theorem indexOp_fault (x : Reg) (s : State) : (indexOp x s).fault = s.fault :=
  indexOp_frame (c := (· ≠ .fault)) (by simp) (by simp) x s .fault (by simp)

/-- Eight instructions raise faults, the others none. -/
theorem exec_faultsAsListed (hf : s.fault = none) (i : Instr) : ∃ t, exec i s = .next t ∧ FaultsAsListed i s t := by
  cases i with
  | ret => exact ret_faultsAsListed hf
  | call nnn => exact call_faultsAsListed hf nnn
  | drw x y n =>
    exact ⟨_, rfl, withRange_faultsAsListed hf fun hn hrange => .inl ⟨x, y, n, rfl, hn, hrange⟩⟩
  | ldBcd x => exact ⟨_, rfl, withRange_faultsAsListed hf fun _ hrange => .inr (.inl ⟨x, rfl, hrange⟩)⟩
  | storeRegs x => exact ⟨_, rfl, withRange_faultsAsListed hf fun _ hrange => .inr (.inr ⟨x, .inl rfl, hrange⟩)⟩
  | loadRegs x => exact ⟨_, rfl, withRange_faultsAsListed hf fun _ hrange => .inr (.inr ⟨x, .inr rfl, hrange⟩)⟩
  | skp x => exact ⟨_, rfl, skipOnKey_faultsAsListed hf (.inl rfl) true⟩
  | sknp x => exact ⟨_, rfl, skipOnKey_faultsAsListed hf (.inr rfl) false⟩
  | addReg x y | subReg x y | shrReg x y | subnReg x y | shlReg x y =>
    exact ⟨_, rfl, faultsAsListed_of_running ((flagOp_fault _ _ x y s).trans hf)⟩
  | addIndex x => exact ⟨_, rfl, faultsAsListed_of_running ((indexOp_fault x s).trans hf)⟩
  | cls | jp _ | seByte _ _ | sneByte _ _ | seReg _ _ | sneReg _ _ | ldByte _ _ | addByte _ _ | ldReg _ _ | orReg _ _
  | andReg _ _ | xorReg _ _ | ldIndex _ | jpV0 _ | rnd _ _ | ldFromDelay _ | ldKey _ | ldDelay _ | ldSound _
  | ldFont _ =>
    exact ⟨_, rfl, faultsAsListed_of_running hf⟩

/-- A fault of a step is a fetch beyond memory, an illegal word, or a cause of the instruction that the step executes. -/
theorem cause_of_step {r : FaultRecord} (hf : s.fault = none) (h : step s = .next t) (hr : t.fault = some r) :
    s.wait = none ∧
      ((r.cause = .outOfBounds ∧ 0xFFE < s.pc.toNat) ∨
       (r.cause = .unknownOpcode ∧ s.pc.toNat ≤ 0xFFE ∧ wordWellFormed (fetchWord s) = false) ∨
       ∃ i, Executes s i ∧ RaisedBy i (beginStep s) r.cause) := by
  obtain ⟨hhalted, -⟩ | ⟨-, x, -, hu⟩ | ⟨-, hw, addr, hc, hu⟩ | ⟨-, hw, hc, hd, hu⟩ | ⟨-, hw, hc, i, hd, hu⟩ :=
    stepEvent_cases (beginStep s)
  · exact absurd hf hhalted
  · obtain rfl := Host.Outcome.next.inj (hu.symm.trans h)
    exact absurd (hf.symm.trans ((waitPoll_fault x (beginStep s)).symm.trans hr)) nofun
  · obtain rfl := Host.Outcome.next.inj (hu.symm.trans h)
    obtain rfl := Option.some.inj hr
    obtain ⟨-, hbeyond, -⟩ := (checkRange_eq_some_iff _ _ _).1 hc
    exact ⟨hw, .inl ⟨rfl, Nat.lt_of_add_lt_add_right (n := 2) hbeyond⟩⟩
  · obtain rfl := Host.Outcome.next.inj (hu.symm.trans h)
    obtain rfl := Option.some.inj hr
    have hpc : s.pc.toNat + 1 < Config.memSize := (fetchCheck_eq_none_iff s).1 hc
    exact ⟨hw, .inr (.inl ⟨rfl, Nat.le_of_lt_succ (Nat.lt_sub_of_add_lt hpc), (decodeWord_eq_none_iff _).1 hd⟩)⟩
  · obtain ⟨u, hexec, hlisted⟩ := exec_faultsAsListed (s := beginStep s) hf i
    obtain rfl := Host.Outcome.next.inj (hexec.symm.trans (hu.symm.trans h))
    exact ⟨hw, .inr (.inr ⟨i, (executes_iff s i).2 ⟨hf, hw, hc, hd⟩, hlisted r hr⟩)⟩

end Conditions

/-- Settles O56: `cause_of_step`, cause by cause; the turn's part changes nothing that a condition speaks of. -/
theorem faultsHaveTheListedConditions : Obligations.FaultsHaveTheListedConditions := by
  unfold Obligations.FaultsHaveTheListedConditions
  rintro s t ⟨cause, pc, opcode, addr⟩ hf h hr
  obtain ⟨hw, ⟨rfl, hpc⟩ | ⟨rfl, hpc, hword⟩ | ⟨i, hi, hraised⟩⟩ := cause_of_step hf h hr
  · exact ⟨hw, .inl hpc⟩
  · exact ⟨hw, hpc, hword⟩
  · refine ⟨hw, ?_⟩
    cases cause with
    | outOfBounds =>
      obtain ⟨x, y, n, rfl, hn, hrange⟩ | ⟨x, rfl, hrange⟩ | ⟨x, rfl | rfl, hrange⟩ := hraised
      · exact .inr (.inl ⟨x, y, n, hi, hn, hrange⟩)
      · exact .inr (.inr (.inl ⟨x, hi, hrange⟩))
      · exact .inr (.inr (.inr ⟨x, .inl hi, hrange⟩))
      · exact .inr (.inr (.inr ⟨x, .inr hi, hrange⟩))
    | unknownOpcode => exact hraised.elim
    | stackOverflow =>
      obtain ⟨hfull, nnn, rfl⟩ := hraised
      exact ⟨hfull, nnn, hi⟩
    | stackUnderflow =>
      obtain ⟨hempty, rfl⟩ := hraised
      exact ⟨hempty, hi⟩
    | invalidKeyIndex =>
      obtain ⟨hpolicy, x, hlarge, rfl | rfl⟩ := hraised
      · exact ⟨hpolicy, x, hlarge, .inl hi⟩
      · exact ⟨hpolicy, x, hlarge, .inr hi⟩

/-! ## The codes (R210) -/

/-- A Load fails with the ROM's length, where the ROM was readable. -/
theorem eq_romLoadFailure_of_load {params : Params} {fontBytes : Vector Byte 80} {rom : Option (List Byte)} {f : Fault}
    (h : load params fontBytes rom = .fault f) : f = .romLoadFailure (rom.map List.length) := by
  cases rom with
  | none => exact (Host.Outcome.fault.inj h).symm
  | some bytes =>
    rw [load] at h
    split at h
    · exact absurd h nofun
    · exact (Host.Outcome.fault.inj h).symm

/-- Settles O57: the codes are those of the definitions, and a Load has one way to fail (`eq_romLoadFailure_of_load`). -/
theorem causeCodesAreThoseOfTheTable : Obligations.CauseCodesAreThoseOfTheTable := by
  unfold Obligations.CauseCodesAreThoseOfTheTable
  refine ⟨rfl, rfl, rfl, rfl, rfl, fun params fontBytes rom f h => ?_⟩
  obtain rfl := eq_romLoadFailure_of_load h
  exact ⟨rfl, rfl⟩

end Sys2Proof.Machine
end

section
/-! PROOF. Events and turns (10_state.md R50, 60_exceptions.md R216, R220, R221). A turn is its Ticks and one Step event; a Step
event is a turn without Ticks, so what is proved of `step` holds of every event of a run. -/

namespace Sys2Proof.Machine

open Sys2Proof.Claims

/-! ## The event Tick (R220) -/

/-- A Tick writes the timers. -/
theorem tick_frame (s : State) : Frame (fun p => p = .dt ∨ p = .st) s (tick s) := by
  unfold tick
  split
  · exact .refl _ s
  · exact ((Frame.refl _ s).setDt (.inl rfl) _).setSt (.inr rfl) _

/-- A Tick lowers the timers of a core that is not halted. -/
theorem tick_timers_decayed {s : State} (hf : s.fault = none) :
    DecayedBy 1 s.dt (tick s).dt ∧ DecayedBy 1 s.st (tick s).st := by
  simp [DecayedBy, tick_eq_ticks, hf, decay_toNat]

/-- Settles O16: a halted core's Tick is the identity, any other lowers the timers (`tick_timers_decayed`). -/
theorem tickDecrementsTimers : Obligations.TickDecrementsTimers := by
  unfold Obligations.TickDecrementsTimers
  refine fun s => ⟨tick_of_halted, fun hf => ?_⟩
  obtain ⟨hdt, hst⟩ := tick_timers_decayed hf
  exact ⟨hdt, hst, tick_frame s⟩

/-! ## Turns and Step events (R221) -/

/-- Settles O13: the Ticks of a turn in a row are `ticks` of their number (`iterate_tick`). -/
theorem turnIsTicksThenStep : Obligations.TurnIsTicksThenStep := by
  unfold Obligations.TurnIsTicksThenStep
  intro s
  rw [iterate_tick]
  rfl

/-- The state with one turn listed that has no Ticks, for a Step with the inputs `inp`. -/
def withBareTurn (inp : Sample) (s : State) : State := withSchedule [⟨0, inp⟩] 0 s

/-- A Step event is a turn without Ticks. -/
theorem step_withBareTurn {s t : State} {inp : Sample} (h : stepEvent (latch inp s) = .next t) :
    step (withBareTurn inp s) = .next (withSchedule [] 1 t) := by
  have hbegin : beginStep (withBareTurn inp s) = withSchedule [] 1 (latch inp s) := by
    rw [beginStep, show (withBareTurn inp s).nextTurn = ⟨0, inp⟩ from rfl, ticks_zero]
    rfl
  obtain ⟨u, hu, hsched⟩ := stepEvent_withSchedule [] 1 (latch inp s)
  obtain rfl := Host.Outcome.next.inj (h.symm.trans hu)
  rw [step, hbegin, hsched]

/-! ## The invariant along a run (R216) -/

theorem inv_withSchedule_iff (inputs : List Turn) (clock : Nat) (s : State) :
    Inv (withSchedule inputs clock s) ↔ Inv s :=
  ⟨fun h => ⟨h.memory, h.sp, h.pc, h.stack, h.waiting, h.faultPc⟩,
    fun h => ⟨h.memory, h.sp, h.pc, h.stack, h.waiting, h.faultPc⟩⟩

theorem Inv.tick {s : State} (h : Inv s) : Inv (tick s) := by
  rw [tick_eq_ticks]
  exact ⟨h.memory, h.sp, h.pc, h.stack, h.waiting, h.faultPc⟩

theorem Inv.apply {e : Event} {s t : State} (h : Inv s) (happly : e.apply s = .next t) : Inv t := by
  cases e with
  | step inp =>
    have hbare : Inv (withBareTurn inp s) := (inv_withSchedule_iff _ _ s).2 h
    exact (inv_withSchedule_iff _ _ t).1 (stepKeepsInvariant _ _ hbare (step_withBareTurn happly))
  | tick =>
    obtain rfl := Host.Outcome.next.inj happly
    exact h.tick

theorem inv_reset : Inv State.reset where
  memory := Memory.nil_wf
  sp := by decide
  pc := by decide
  stack := by decide
  waiting := nofun
  faultPc := nofun

/-- A Load that succeeds writes FONT and ROM to an empty memory. -/
theorem inv_of_load {params : Params} {fontBytes : Vector Byte 80} {rom : Option (List Byte)} {s : State}
    (h : load params fontBytes rom = .next s) : Inv s := by
  cases rom with
  | none => exact absurd h nofun
  | some bytes =>
    rw [load] at h
    split at h
    · obtain rfl := Host.Outcome.next.inj h
      exact { inv_reset with memory := Memory.writeBytes_wf (Memory.writeBytes_wf Memory.nil_wf _ _) _ _ }
    · exact absurd h nofun

/-- Settles O19: a Load gives a state of the invariant, and every event keeps it. -/
theorem reachableStatesSatisfyInvariant : Obligations.ReachableStatesSatisfyInvariant := by
  unfold Obligations.ReachableStatesSatisfyInvariant
  intro s hs
  induction hs with
  | load _ _ _ _ hload => exact inv_of_load hload
  | event _ _ _ _ happly ih => exact ih.apply happly

end Sys2Proof.Machine
end

section
/-! PROOF. Interleavings (60_exceptions.md R221, R222): where the Ticks of the reference schedule stand and how many there are, and
which interleavings are admissible. -/

namespace Sys2Proof.Machine

/-! ## The reference schedule in turns (R222) -/

/-- The Ticks of the reference schedule that stand before Step `j`. -/
def ticksBefore (k j : Nat) : Nat := if 0 < j ∧ j % k = 0 then 1 else 0

theorem referenceSchedule_getElem? {k n j : Nat} (hj : j < n) (sample : Nat → Sample) :
    (referenceSchedule k n sample)[j]? = some { ticks := ticksBefore k j, sample := sample j } := by
  rw [referenceSchedule, List.getElem?_map, List.getElem?_range hj]
  rfl

theorem referenceSchedule_map_ticks (k n : Nat) (sample : Nat → Sample) :
    (referenceSchedule k n sample).map Turn.ticks = (List.range n).map (ticksBefore k) := by
  rw [referenceSchedule, List.map_map]
  rfl

theorem ticksBefore_succ (k j : Nat) : ticksBefore k (j + 1) = if k ∣ j + 1 then 1 else 0 := by
  simp [ticksBefore, Nat.dvd_iff_mod_eq_zero]

theorem ticksBefore_eq_one_or_zero (k j : Nat) : ticksBefore k j = 1 ∨ ticksBefore k j = 0 := by
  unfold ticksBefore
  split
  · exact .inl rfl
  · exact .inr rfl

/-- A Tick stands before the Steps whose number is a positive multiple of STEPS_PER_TICK. -/
theorem ticksBefore_eq_one_iff {k : Nat} (hk : 0 < k) (j : Nat) :
    ticksBefore k j = 1 ↔ ∃ m, 0 < m ∧ j = m * k := by
  have hmultiple : ticksBefore k j = 1 ↔ 0 < j ∧ k ∣ j := by simp [ticksBefore, Nat.dvd_iff_mod_eq_zero]
  rw [hmultiple]
  constructor
  · rintro ⟨hj, m, rfl⟩
    exact ⟨m, Nat.pos_of_mul_pos_left hj, Nat.mul_comm k m⟩
  · rintro ⟨m, hm, rfl⟩
    exact ⟨Nat.mul_pos hm hk, Nat.dvd_mul_left k m⟩

/-- Of the first `n + 1` Steps, one in `k` but the first has a Tick before it. -/
theorem sum_ticksBefore (k n : Nat) : ((List.range (n + 1)).map (ticksBefore k)).sum = n / k := by
  induction n with
  | zero => simp [ticksBefore]
  | succ n ih => rw [List.sum_range_succ, ih, ticksBefore_succ, Nat.succ_div]

/-- Settles O14: the Ticks are those before each Step, and `sum_ticksBefore` counts them. -/
theorem referenceScheduleCountsTicks : Obligations.ReferenceScheduleCountsTicks := by
  unfold Obligations.ReferenceScheduleCountsTicks
  intro k n sample _ hn
  obtain ⟨n, rfl⟩ := Nat.exists_eq_succ_of_ne_zero hn.ne'
  refine ⟨by simp [referenceSchedule], ?_⟩
  rw [referenceSchedule_map_ticks]
  exact sum_ticksBefore k n

/-- Settles O58: turn `j` has the Ticks before Step `j`. -/
theorem referenceScheduleTurn : Obligations.ReferenceScheduleTurn := by
  unfold Obligations.ReferenceScheduleTurn
  exact fun k _ sample j hk hj => ⟨_, referenceSchedule_getElem? hj sample, rfl, ticksBefore_eq_one_or_zero k j,
    ticksBefore_eq_one_iff hk j⟩

/-! ## The events of turns (R221) -/

section Turns

variable {turns : Nat → Turn} {n i k : Nat}

theorem interleavingOf_of_last (h : turnAt turns n = (i, 0)) : interleavingOf turns n = .step (turns i).sample := by
  rw [interleavingOf, h]

theorem interleavingOf_eq_tick_iff : interleavingOf turns n = .tick ↔ 0 < (turnAt turns n).2 := by
  unfold interleavingOf
  obtain ⟨i, _ | k⟩ := turnAt turns n <;> simp

/-- Turns come in order. -/
theorem turnAt_fst_mono (turns : Nat → Turn) : Monotone fun n => (turnAt turns n).1 := by
  refine monotone_nat_of_le_succ fun n => ?_
  rw [turnAt]
  obtain ⟨i, _ | k⟩ := turnAt turns n
  · exact Nat.le_succ i
  · exact Nat.le_refl i

/-- The Ticks still to come are Ticks of the turn. -/
theorem turnAt_snd_le (turns : Nat → Turn) (n : Nat) : (turnAt turns n).2 ≤ (turns (turnAt turns n).1).ticks := by
  induction n with
  | zero => exact Nat.le_refl _
  | succ n ih =>
    rw [turnAt]
    revert ih
    obtain ⟨i, _ | k⟩ := turnAt turns n
    · exact fun _ => Nat.le_refl _
    · exact Nat.le_of_succ_le

/-- Turns are fair exactly when Ticks occur infinitely often among their events: a Tick belongs to a turn that has one, and a
turn that has one begins with it. -/
theorem fairTurns_iff_ticks : FairTurns turns ↔ ∀ n, ∃ m, n ≤ m ∧ interleavingOf turns m = .tick := by
  simp only [interleavingOf_eq_tick_iff]
  constructor
  · intro hfair n
    obtain ⟨i, hi, hticks⟩ := hfair n
    obtain ⟨m, hm, hstart⟩ := turnAt_start turns i
    exact ⟨m, hi.trans hm, by rwa [hstart]⟩
  · intro hticks i
    obtain ⟨n, -, hstart⟩ := turnAt_start turns i
    obtain ⟨m, hm, htick⟩ := hticks n
    have hle : (turnAt turns n).1 ≤ (turnAt turns m).1 := turnAt_fst_mono turns hm
    rw [hstart] at hle
    exact ⟨_, hle, htick.trans_le (turnAt_snd_le turns m)⟩

/-- Every turn ends with its Step. -/
theorem steps_of_turns (turns : Nat → Turn) (n : Nat) : ∃ m, n ≤ m ∧ ∃ inp, interleavingOf turns m = .step inp := by
  obtain ⟨m, hm, hstart⟩ := turnAt_start turns n
  exact ⟨_, hm.trans (Nat.le_add_right m _), _, interleavingOf_of_last (turnAt_add turns hstart)⟩

theorem admissible_interleavingOf_iff : Admissible (interleavingOf turns) ↔ FairTurns turns :=
  ⟨fun h => fairTurns_iff_ticks.2 h.ticks, fun h => ⟨steps_of_turns turns, fairTurns_iff_ticks.1 h⟩⟩

end Turns

/-! ## The reference schedule in events (R222) -/

section Reference

variable {k : Nat} {sample : Nat → Sample}

theorem referenceInterleaving_eq_tick_iff {n : Nat} :
    referenceInterleaving k sample n = .tick ↔ n % (k + 1) = k := by
  simp [referenceInterleaving]

/-- The Tick of the group of events that event `n` belongs to. -/
theorem atMostStepsPerTick_reference : AtMostStepsPerTick k (referenceInterleaving k sample) := by
  intro n
  have hlt : n % (k + 1) < k + 1 := Nat.mod_lt n k.succ_pos
  have hsplit := Nat.div_add_mod n (k + 1)
  refine ⟨(k + 1) * (n / (k + 1)) + k, by omega, by omega, ?_⟩
  rw [referenceInterleaving_eq_tick_iff, Nat.mul_add_mod, Nat.mod_eq_of_lt k.lt_succ_self]

/-- Two Ticks are whole groups apart. -/
theorem atLeastStepsPerTick_reference : AtLeastStepsPerTick k (referenceInterleaving k sample) := by
  intro n m hlt hn hm
  rw [referenceInterleaving_eq_tick_iff] at hn hm
  have hdvd : k + 1 ∣ m - n := (Nat.modEq_iff_dvd' hlt.le).1 (hn.trans hm.symm)
  have hle : k + 1 ≤ m - n := Nat.le_of_dvd (Nat.sub_pos_of_lt hlt) hdvd
  omega

/-- Every group begins with a Step and ends with a Tick. -/
theorem admissible_reference (hk : 0 < k) : Admissible (referenceInterleaving k sample) where
  steps n := by
    have hfirst : (k + 1) * n % (k + 1) ≠ k := by
      rw [Nat.mul_mod_right]
      exact hk.ne
    exact ⟨(k + 1) * n, Nat.le_mul_of_pos_left n k.succ_pos, _, if_neg hfirst⟩
  ticks n :=
    let ⟨m, hle, _, htick⟩ := atMostStepsPerTick_reference n
    ⟨m, hle, htick⟩

end Reference

/-- Settles O59: the events of turns, and the groups of the reference schedule. -/
theorem admissibleInterleavings : Obligations.AdmissibleInterleavings := by
  unfold Obligations.AdmissibleInterleavings
  exact ⟨fun _ => admissible_interleavingOf_iff, fun _ _ hk =>
    ⟨admissible_reference hk, atMostStepsPerTick_reference, atLeastStepsPerTick_reference⟩⟩

end Sys2Proof.Machine
end

section
/-! PROOF. What fairness gives (60_exceptions.md R220, R221): a timer that no Step writes goes down with the Ticks, by their number
over a run of turns, and to 0 where Ticks never cease. -/

namespace Sys2Proof.Machine

open Sys2Proof.Claims

/-! ## One timer, over one event or turn -/

/-- The two timers (10_state.md R42, R43). -/
inductive Timer where
  | delay
  | sound

def Timer.value : Timer → State → Byte
  | .delay, s => s.dt
  | .sound, s => s.st

def Timer.part : Timer → Part
  | .delay => .dt
  | .sound => .st

/-- The instruction that writes the timer (44_keys_timers.md R196, R197). -/
def Timer.setBy : Timer → Reg → Instr
  | .delay => .ldDelay
  | .sound => .ldSound

/-- How many Ticks an event is. -/
def Event.tickCount : Event → Nat
  | .step _ => 0
  | .tick => 1

section Decay

variable {s t : State} (τ : Timer)

theorem part_same_iff : τ.part.same s t ↔ τ.value t = τ.value s := by
  cases τ <;> rfl

theorem eq_setBy_of_writes {i : Instr} {sp : Byte} (h : Writes i sp τ.part) : ∃ x, i = τ.setBy x := by
  cases τ <;> exact h

/-- After the Ticks of its turn, a step writes a timer only by the instruction of that timer. -/
theorem step_timer_eq (h : step s = .next t) (hw : ∀ x, ¬ Executes s (τ.setBy x)) : τ.value t = τ.value (beginStep s) := by
  have hpoll : ∀ x, ¬ (τ.part = .reg x ∨ τ.part = .wait ∨ τ.part = .pc) := by cases τ <;> simp [Timer.part]
  have hrecord : ¬ (τ.part = .fault ∨ τ.part = .fbChanged) := by cases τ <;> simp [Timer.part]
  rw [← part_same_iff]
  obtain ⟨-, rfl⟩ | ⟨-, x, -, rfl⟩ | ⟨-, -, cause, opcode, addr, rfl⟩ | ⟨i, hi, hexec⟩ := step_cases h
  · exact Frame.refl (fun _ => False) _ _ id
  · exact waitPoll_frame x _ _ (hpoll x)
  · exact raiseFault_frame cause opcode addr _ _ hrecord
  · by_contra hchanged
    obtain ⟨x, rfl⟩ := eq_setBy_of_writes τ (writes_of_exec hexec hchanged hrecord)
    exact hw x hi

theorem beginStep_timer_decayed (hf : s.fault = none) :
    DecayedBy s.nextTurn.ticks (τ.value s) (τ.value (beginStep s)) := by
  cases τ
  · exact (beginStep_timers_decayed hf).1
  · exact (beginStep_timers_decayed hf).2

theorem tick_timer_decayed (hf : s.fault = none) : DecayedBy 1 (τ.value s) (τ.value (tick s)) := by
  cases τ
  · exact (tick_timers_decayed hf).1
  · exact (tick_timers_decayed hf).2

theorem step_timer_decayed (hf : s.fault = none) (h : step s = .next t) (hw : ∀ x, ¬ Executes s (τ.setBy x)) :
    DecayedBy s.nextTurn.ticks (τ.value s) (τ.value t) := by
  rw [step_timer_eq τ h hw]
  exact beginStep_timer_decayed τ hf

theorem event_timer_decayed {e : Event} (hf : s.fault = none) (h : e.apply s = .next t)
    (hw : ∀ inp x, e = .step inp → ¬ Executes s (τ.setBy x)) : DecayedBy e.tickCount (τ.value s) (τ.value t) := by
  cases e with
  | step inp =>
    have hbare : ∀ x, ¬ Executes (withBareTurn inp s) (τ.setBy x) := fun x => hw inp x rfl
    have hdecayed := step_timer_decayed τ (s := withBareTurn inp s) hf (step_withBareTurn h) hbare
    cases τ <;> exact hdecayed
  | tick =>
    obtain rfl := Host.Outcome.next.inj h
    exact tick_timer_decayed τ hf

end Decay

/-! ## One timer, over a run -/

/-- A timer that only Ticks lower, where Ticks never cease, comes down to 0: it never rises, so it comes to rest, and a Tick
lets it rest at 0 only. -/
theorem eventually_zero_of_decayed {e : Interleaving} (hadm : Admissible e) {timer : Nat → Byte}
    (hdecay : ∀ n, DecayedBy (e n).tickCount (timer n) (timer (n + 1))) : ∃ m, ∀ n, m ≤ n → timer n = 0 := by
  have hfalls : Antitone fun n => (timer n).toNat := antitone_nat_of_succ_le fun n => by
    rw [hdecay n]
    exact Nat.sub_le _ _
  obtain ⟨m, hrest⟩ := WellFoundedLT.antitone_chain_condition hfalls
  obtain ⟨j, hj, htick⟩ := hadm.ticks m
  have hzero : (timer m).toNat = 0 := by
    have hlowered : (timer (j + 1)).toNat = (timer j).toNat - 1 := by
      have := hdecay j
      rwa [htick] at this
    have hbefore := hrest j hj
    have hafter := hrest (j + 1) (hj.trans j.le_succ)
    omega
  exact ⟨m, fun n hn => BitVec.eq_of_toNat_eq ((hrest n hn).symm.trans hzero)⟩

/-- Ticks add up over a run of turns. -/
theorem decayedBy_sum {ticks : Nat → Nat} {timer : Nat → Byte} {n : Nat}
    (hdecay : ∀ j, j < n → DecayedBy (ticks j) (timer j) (timer (j + 1))) :
    DecayedBy ((List.range n).map ticks).sum (timer 0) (timer n) := by
  induction n with
  | zero => rfl
  | succ n ih =>
    have hrun : (timer n).toNat = (timer 0).toNat - ((List.range n).map ticks).sum :=
      ih fun j hj => hdecay j (hj.trans n.lt_succ_self)
    have hlast : (timer (n + 1)).toNat = (timer n).toNat - ticks n := hdecay n n.lt_succ_self
    rw [DecayedBy, List.sum_range_succ, hlast, hrun, Nat.sub_sub]

theorem timer_drains (τ : Timer) {e : Interleaving} {states : Nat → State} (hadm : Admissible e) (hfollows : Follows e states)
    (hrunning : ∀ n, (states n).fault = none)
    (hw : ∀ n inp x, e n = .step inp → ¬ Executes (states n) (τ.setBy x)) :
    ∃ m, ∀ n, m ≤ n → τ.value (states n) = 0 :=
  eventually_zero_of_decayed hadm fun n => event_timer_decayed τ (hrunning n) (hfollows n) (hw n)

theorem timer_decayed_of_run (τ : Timer) {states : Nat → State} {n : Nat}
    (hsteps : ∀ j, j < n → step (states j) = .next (states (j + 1)) ∧ (states j).fault = none)
    (hw : ∀ j x, j < n → ¬ Executes (states j) (τ.setBy x)) :
    DecayedBy ((List.range n).map fun j => (states j).nextTurn.ticks).sum (τ.value (states 0)) (τ.value (states n)) :=
  decayedBy_sum (timer := fun j => τ.value (states j)) fun j hj =>
    let ⟨hstep, hf⟩ := hsteps j hj
    step_timer_decayed τ hf hstep fun x => hw j x hj

/-- Settles O60: `timer_drains` for the infinite runs and `timer_decayed_of_run` for the turns, for each timer. -/
theorem fairRunsDrainTheTimers : Obligations.FairRunsDrainTheTimers := by
  unfold Obligations.FairRunsDrainTheTimers
  refine ⟨fun e states hadm hfollows hrunning => ⟨?_, ?_⟩, fun states n hsteps => ⟨?_, ?_⟩⟩
  · exact timer_drains .delay hadm hfollows hrunning
  · exact timer_drains .sound hadm hfollows hrunning
  · exact timer_decayed_of_run .delay hsteps
  · exact timer_decayed_of_run .sound hsteps

end Sys2Proof.Machine
end

section
/-! PROOF. The event Load and the state after reset (70_reset_and_hazards.md R240, R241): which ROMs load, and what the memory
holds then. -/

namespace Sys2Proof.Machine

/-! ## Memory after a Load -/

/-- The memory after a Load: the FONT at FONT_BASE, then the ROM at ROM_BASE. -/
def loadedMemory (fontBytes : Vector Byte 80) (rom : List Byte) : Memory :=
  Memory.writeBytes (Memory.writeBytes [] Config.fontBase fontBytes.toList) Config.romBase rom

section LoadedMemory

variable (fontBytes : Vector Byte 80) {rom : List Byte}

theorem fontMemory_wf : (Memory.writeBytes [] Config.fontBase fontBytes.toList).wf :=
  Memory.writeBytes_wf Memory.nil_wf _ _

/-- The ROM starts above the FONT, so it overwrites none of it. -/
theorem loadedMemory_read_font (rom : List Byte) (j : Fin 80) :
    (loadedMemory fontBytes rom).read j.val = fontBytes[j.val] := by
  have hbelow : j.val < Config.romBase := j.isLt.trans (by decide)
  have hfont := Memory.read_writeBytes Memory.nil_wf (a := Config.fontBase) (bs := fontBytes.toList) j.val (by simp)
    (by rw [Vector.length_toList]; decide)
  rw [loadedMemory, Memory.read_writeBytes_of_outside (fontMemory_wf fontBytes) (.inl hbelow)]
  simpa [Config.fontBase] using hfont

theorem loadedMemory_read_rom (hrom : rom.length ≤ Config.romMax) (j : Nat) (hj : j < rom.length) :
    (loadedMemory fontBytes rom).read (Config.romBase + j) = rom[j] :=
  Memory.read_writeBytes (fontMemory_wf fontBytes) j hj (Nat.add_le_add_left hrom Config.romBase)

/-- An address past the FONT and outside the ROM is one that neither writes, and an unlisted address past the default FONT
reads as 0. -/
theorem loadedMemory_read_rest {a : Nat} (hfont : 80 ≤ a) (hrom : a < Config.romBase ∨ Config.romBase + rom.length ≤ a) :
    (loadedMemory fontBytes rom).read a = 0 := by
  have hpast : Config.fontBase + fontBytes.toList.length ≤ a := by simpa [Config.fontBase] using hfont
  calc (loadedMemory fontBytes rom).read a
      = (Memory.writeBytes [] Config.fontBase fontBytes.toList).read a :=
        Memory.read_writeBytes_of_outside (fontMemory_wf fontBytes) hrom
    _ = Memory.blank a := Memory.read_writeBytes_of_outside Memory.nil_wf (.inr hpast)
    _ = 0 := List.getD_eq_default font 0 hfont

end LoadedMemory

/-! ## Which ROMs load (R241) -/

section Load

variable (params : Params) (fontBytes : Vector Byte 80) {rom : List Byte}

/-- A ROM that fits gives the state after reset, but for the parameters and the memory. -/
theorem load_of_fits (hrom : rom.length ≤ Config.romMax) :
    load params fontBytes (some rom) =
      .next { State.reset with params := params, mem := loadedMemory fontBytes rom } :=
  if_pos (decide_eq_true hrom)

theorem load_of_too_long (hrom : Config.romMax < rom.length) :
    load params fontBytes (some rom) = .fault (.romLoadFailure (some rom.length)) := by
  have hbad : ¬ romWellFormed rom = true := by simpa [romWellFormed] using hrom
  exact if_neg hbad

end Load

/-! ## The elements after reset, and Load -/

theorem stackAt_reset (j : Fin 16) : State.reset.stackAt j.val = 0 :=
  (stackAt_eq State.reset j).trans (Vector.getElem_replicate j.isLt)

theorem reg_reset (r : Reg) : State.reset.reg r = 0 := Vector.getElem_replicate r.isLt

/-- Settles O15: the elements are those of reset, and the memory is that of `loadedMemory`, region by region. -/
theorem loadInitialisesTheCore : Obligations.LoadInitialisesTheCore := by
  unfold Obligations.LoadInitialisesTheCore
  refine fun params fontBytes rom => ⟨rfl, load_of_too_long params fontBytes, fun hrom => ?_⟩
  refine ⟨_, load_of_fits params fontBytes hrom, reg_reset, rfl, rfl, rfl, stackAt_reset, rfl, rfl,
    fun cx cy => readCell_clearedFb cx.val cy.val, rfl, rfl, ?_, ?_, ?_⟩
  · exact loadedMemory_read_font fontBytes rom
  · exact loadedMemory_read_rom fontBytes hrom
  · exact fun a _ => loadedMemory_read_rest fontBytes

/-! ## The invariant after reset -/

/-- Settles O17: an empty memory is canonical, nothing is on the stack, and the core neither waits nor is halted. -/
theorem resetSatisfiesInvariant : Obligations.ResetSatisfiesInvariant := by
  unfold Obligations.ResetSatisfiesInvariant
  exact inv_reset

end Sys2Proof.Machine
end

section
/-! PROOF. The parameters of an instance (00_scope.md section 2): a Load sets them, and they stand in the environment's part, which
only the start of a Step writes, and there only beside them. -/

namespace Sys2Proof.Machine

variable {s t : State}

/-- A Load gives an instance only of a readable ROM that fits, and then the one of `load_of_fits`. -/
theorem eq_of_load {params : Params} {fontBytes : Vector Byte 80} {rom : Option (List Byte)}
    (h : load params fontBytes rom = .next s) :
    ∃ bytes, rom = some bytes ∧ bytes.length ≤ Config.romMax ∧
      s = { State.reset with params := params, mem := loadedMemory fontBytes bytes } := by
  cases rom with
  | none => exact absurd h nofun
  | some bytes =>
    obtain hlong | hfits := Nat.lt_or_ge Config.romMax bytes.length
    · exact absurd (h.symm.trans (load_of_too_long params fontBytes hlong)) nofun
    · exact ⟨bytes, rfl, hfits, Host.Outcome.next.inj (h.symm.trans (load_of_fits params fontBytes hfits))⟩

/-- Once the Step has begun, nothing writes the parameters, the inputs or the clock: neither a poll, nor a fault, nor an
instruction has the environment among its parts. -/
theorem step_environment_same (h : step s = .next t) : Part.environment.same (beginStep s) t := by
  obtain ⟨-, rfl⟩ | ⟨-, x, -, rfl⟩ | ⟨-, -, cause, opcode, addr, rfl⟩ | ⟨i, -, hexec⟩ := step_cases h
  · exact Frame.refl (fun _ => False) _ _ id
  · exact waitPoll_frame x _ _ (by simp)
  · exact raiseFault_frame cause opcode addr _ _ (by simp)
  · by_contra hchanged
    exact writes_of_exec hexec hchanged (by simp)

theorem step_params (h : step s = .next t) : t.params = s.params := by
  obtain ⟨hparams, -⟩ := step_environment_same h
  exact hparams.trans (beginStep_params s)

theorem tick_params (s : State) : (tick s).params = s.params := by
  obtain ⟨hparams, -⟩ := tick_frame s .environment (by simp)
  exact hparams

/-- Settles O28: a Load puts the parameters it is given into the instance (`eq_of_load`), and neither a Tick (`tick_params`) nor
a step (`step_params`) writes them. -/
theorem parametersNeverChange : Obligations.ParametersNeverChange := by
  unfold Obligations.ParametersNeverChange
  refine ⟨fun params fontBytes rom s hload => ?_, fun s t => ⟨tick_params s, step_params⟩⟩
  obtain ⟨_, -, -, rfl⟩ := eq_of_load hload
  rfl

end Sys2Proof.Machine
end
